-- ==== Sys2Proof/Word.lean ====
section
/-! DEFINITION. The words of the Huffman core, named as the spec names them (00_scope.md R5, R7). -/

namespace Sys2Proof

/-- A command word: 64 bits, bit 0 least significant (R7, R74). -/
abbrev CmdWord := BitVec 64

/-- A response word: 64 bits (R7, R77). -/
abbrev RspWord := BitVec 64

/-- The DATA of a response, and the IMM operand of a command: 32 bits (R74, R77). -/
abbrev Data := BitVec 32

/-- An opcode byte, command bits [63:56] (R74). -/
abbrev Opcode := BitVec 8

/-- A symbol, SYM_W = 8 bits (R5). -/
abbrev Sym := BitVec 8

/-- A loaded weight, WEIGHT_W = 32 bits, unsigned (R5, R6). -/
abbrev Weight := BitVec 32

/-- A working-set weight, IW = 40 bits, unsigned (R5, R6). -/
abbrev MergedWeight := BitVec 40

/-- A node index, NODE_W = 9 bits (R5). -/
abbrev NodeIdx := BitVec 9

/-- A bit string: a finite sequence of bits, element 0 first (R10). -/
abbrev Bits := List Bool

end Sys2Proof
end

