-- ==== Sys2Proof/Config.lean ====
section
/-! DEFINITION. The implementation parameters of 00_scope.md R5: fixed sizes, and the one open parameter. -/

namespace Sys2Proof

/-- NSYM: the alphabet size, 2^SYM_W (R5). -/
abbrev Config.nsym : Nat := 256

/-- MAX_NODES: the size of the node arena, 2 * NSYM - 1 (R5). -/
abbrev Config.maxNodes : Nat := 511

/-- MAX_CODE_LEN: the longest possible code, NSYM - 1 bits (R5, R131). -/
abbrev Config.maxCodeLen : Nat := 255

/-- CODE_WORDS: the 32-bit readback words of a code (R5). -/
abbrev Config.codeWords : Nat := 8

/-- A value of the open parameter BSEQ_CAP_BITS, held as the index of the accumulator's last 32-bit word, which is
BSEQ_CAP_BITS/32 - 1: every value of this type is a multiple of 32 between 32 and 2^31, and every such capacity is a
value of this type (R5, D16). -/
structure BseqCap where
  lastWord : BitVec 26
  deriving DecidableEq, Repr, Inhabited

/-- The number of 32-bit words of the accumulator: BSEQ_CAP_BITS/32. -/
def BseqCap.words (c : BseqCap) : Nat := c.lastWord.toNat + 1

/-- BSEQ_CAP_BITS. -/
def BseqCap.bits (c : BseqCap) : Nat := 32 * c.words

/-- The capacity of the machine that `State.reset` describes: the spec leaves it OPEN (D16), so it has no body here and
nothing can be proved of its value beyond the type's own bounds (assumption log 1). -/
opaque Config.bseqCap : BseqCap

end Sys2Proof
end

