-- ==== Sys2Proof/Syntax.lean ====
section
/-! DEFINITION. The command set: one constructor per row of spec/opcode_table.json (30_encoding.md R79), with the
operands its format takes (R75, R76). -/

namespace Sys2Proof

/-- A command, its operands as decoded fields: SYM and N are the 8-bit field A, IMM the 32-bit field (R74, R76). -/
inductive Instr where
  /-- NOP, OPC 0x00 (R190). -/
  | nop
  /-- SOFT_RESET, OPC 0x01 (R191). -/
  | softReset
  /-- READ_STATUS, OPC 0x02 (R192). -/
  | readStatus
  /-- READ_ERROR, OPC 0x03 (R193). -/
  | readError
  /-- CLEAR_ERROR, OPC 0x04 (R194). -/
  | clearError
  /-- LOAD_WEIGHT sym, weight, OPC 0x10 (R100). -/
  | loadWeight (sym : Sym) (imm : Data)
  /-- READ_WEIGHT sym, OPC 0x11 (R101). -/
  | readWeight (sym : Sym)
  /-- CLEAR_WEIGHTS, OPC 0x12 (R102). -/
  | clearWeights
  /-- BUILD, OPC 0x20 (R110). -/
  | build
  /-- READ_NODE index, OPC 0x21 (R111). -/
  | readNode (imm : Data)
  /-- GEN_TABLE, OPC 0x30 (R130). -/
  | genTable
  /-- READ_CODE_LEN sym, OPC 0x31 (R132). -/
  | readCodeLen (sym : Sym)
  /-- READ_CODE_WORD sym, word index, OPC 0x32 (R133). -/
  | readCodeWord (sym : Sym) (imm : Data)
  /-- ENCODE sym, OPC 0x40 (R170). -/
  | encode (sym : Sym)
  /-- BSEQ_CLEAR, OPC 0x50 (R151). -/
  | bseqClear
  /-- BSEQ_ADD_BIT bit, OPC 0x51 (R152). -/
  | bseqAddBit (imm : Data)
  /-- BSEQ_APPEND_BITS n, bits, OPC 0x52 (R153). -/
  | bseqAppendBits (n : BitVec 8) (imm : Data)
  /-- READ_BSEQ_LEN, OPC 0x53 (R154). -/
  | readBseqLen
  /-- READ_BSEQ_WORD word index, OPC 0x54 (R155). -/
  | readBseqWord (imm : Data)
  deriving DecidableEq, Repr

end Sys2Proof
end

