-- ==== Sys2Proof/Decode.lean ====
section
/-! DEFINITION. The decoder of 30_encoding.md R80, total on 64-bit words and rejecting by subcause, and the encoder
written from the same encoding tables (R74, R75, R79). -/

namespace Sys2Proof

/-- The command formats of R75. -/
inductive Format where
  | z | s | si | i | ni
  deriving DecidableEq, Repr

/-- Why a word is no command: the subcauses of ILLEGAL_COMMAND (R80, R201). -/
inductive Illegal where
  /-- The opcode is not assigned (R82). -/
  | unassignedOpcode
  /-- A field the format reserves is not 0 (R75). -/
  | reservedNonZero
  /-- An operand lies outside its static range (R81). -/
  | operandOutOfRange
  deriving DecidableEq, Repr

/-- The argument that ILLEGAL_COMMAND reports: 1, 2 or 3 (R80). -/
def Illegal.subcause : Illegal → BitVec 8
  | .unassignedOpcode => 1
  | .reservedNonZero => 2
  | .operandOutOfRange => 3

/-- One row of the opcode map of R79: mnemonic, opcode, format, and the command for field A and field IMM. -/
structure OpRow where
  mnemonic : String
  opc : Opcode
  format : Format
  command : BitVec 8 → Data → Instr

/-- The opcode map of R79: every assigned opcode. -/
def opcodeTable : List OpRow :=
  [⟨"NOP", 0x00, .z, fun _ _ => .nop⟩,
   ⟨"SOFT_RESET", 0x01, .z, fun _ _ => .softReset⟩,
   ⟨"READ_STATUS", 0x02, .z, fun _ _ => .readStatus⟩,
   ⟨"READ_ERROR", 0x03, .z, fun _ _ => .readError⟩,
   ⟨"CLEAR_ERROR", 0x04, .z, fun _ _ => .clearError⟩,
   ⟨"LOAD_WEIGHT", 0x10, .si, fun a imm => .loadWeight a imm⟩,
   ⟨"READ_WEIGHT", 0x11, .s, fun a _ => .readWeight a⟩,
   ⟨"CLEAR_WEIGHTS", 0x12, .z, fun _ _ => .clearWeights⟩,
   ⟨"BUILD", 0x20, .z, fun _ _ => .build⟩,
   ⟨"READ_NODE", 0x21, .i, fun _ imm => .readNode imm⟩,
   ⟨"GEN_TABLE", 0x30, .z, fun _ _ => .genTable⟩] ++
  [⟨"READ_CODE_LEN", 0x31, .s, fun a _ => .readCodeLen a⟩,
   ⟨"READ_CODE_WORD", 0x32, .si, fun a imm => .readCodeWord a imm⟩,
   ⟨"ENCODE", 0x40, .s, fun a _ => .encode a⟩,
   ⟨"BSEQ_CLEAR", 0x50, .z, fun _ _ => .bseqClear⟩,
   ⟨"BSEQ_ADD_BIT", 0x51, .i, fun _ imm => .bseqAddBit imm⟩,
   ⟨"BSEQ_APPEND_BITS", 0x52, .ni, fun a imm => .bseqAppendBits a imm⟩,
   ⟨"READ_BSEQ_LEN", 0x53, .z, fun _ _ => .readBseqLen⟩,
   ⟨"READ_BSEQ_WORD", 0x54, .i, fun _ imm => .readBseqWord imm⟩]

/-- Field OPC, bits [63:56] (R74). -/
def opcField (w : CmdWord) : Opcode := w.extractLsb' 56 8

/-- Field A, bits [55:48]: SYM or N (R74, R76). -/
def aField (w : CmdWord) : BitVec 8 := w.extractLsb' 48 8

/-- Field IMM, bits [31:0] (R74, R76). -/
def immField (w : CmdWord) : Data := w.extractLsb' 0 32

/-- The bits that the format reserves are all 0 (R75, R80). -/
def reservedClear : Format → CmdWord → Bool
  | .z, w => w.extractLsb' 0 56 == 0
  | .s, w => w.extractLsb' 0 48 == 0
  | .si, w => w.extractLsb' 32 16 == 0
  | .ni, w => w.extractLsb' 32 16 == 0
  | .i, w => w.extractLsb' 32 24 == 0

/-- Word k exists in the accumulator: k <= BSEQ_CAP_BITS/32 - 1 (R81). Word 0 exists at every capacity, and saying so first
lets the test be evaluated on it with the parameter left open. -/
def BseqCap.hasWord (cap : BseqCap) (k : Nat) : Bool := k == 0 || Nat.ble k cap.lastWord.toNat

/-- `in_static_range` of R80, the checks of R81. -/
def inStaticRange (cap : BseqCap) : Instr → Bool
  | .readNode imm => Nat.ble imm.toNat 510
  | .readCodeWord _ imm => Nat.ble imm.toNat 7
  | .bseqAddBit imm => Nat.ble imm.toNat 1
  | .bseqAppendBits n _ => Nat.ble n.toNat 32
  | .readBseqWord imm => cap.hasWord imm.toNat
  | .nop | .softReset | .readStatus | .readError | .clearError | .loadWeight _ _ | .readWeight _ | .clearWeights
  | .build | .genTable | .readCodeLen _ | .encode _ | .bseqClear | .readBseqLen => true

/-- `decode` of R80: the checks in order, the first that fails ending the command. -/
def decode (cap : BseqCap) (w : CmdWord) : Except Illegal Instr :=
  match opcodeTable.find? (fun row => row.opc == opcField w) with
  | none => .error .unassignedOpcode
  | some row =>
    if reservedClear row.format w then
      if inStaticRange cap (row.command (aField w) (immField w)) then .ok (row.command (aField w) (immField w))
      else .error .operandOutOfRange
    else .error .reservedNonZero

/-- The opcode byte of a command (R79). -/
def opcodeOf : Instr → Opcode
  | .nop => 0x00
  | .softReset => 0x01
  | .readStatus => 0x02
  | .readError => 0x03
  | .clearError => 0x04
  | .loadWeight _ _ => 0x10
  | .readWeight _ => 0x11
  | .clearWeights => 0x12
  | .build => 0x20
  | .readNode _ => 0x21
  | .genTable => 0x30
  | .readCodeLen _ => 0x31
  | .readCodeWord _ _ => 0x32
  | .encode _ => 0x40
  | .bseqClear => 0x50
  | .bseqAddBit _ => 0x51
  | .bseqAppendBits _ _ => 0x52
  | .readBseqLen => 0x53
  | .readBseqWord _ => 0x54

/-- Field A of a command's word: SYM, N, or 0 where the format reserves it (R75). -/
def operandA : Instr → BitVec 8
  | .loadWeight sym _ | .readWeight sym | .readCodeLen sym | .readCodeWord sym _ | .encode sym => sym
  | .bseqAppendBits n _ => n
  | .nop | .softReset | .readStatus | .readError | .clearError | .clearWeights | .build | .readNode _ | .genTable
  | .bseqClear | .bseqAddBit _ | .readBseqLen | .readBseqWord _ => 0

/-- Field IMM of a command's word, or 0 where the format reserves it (R75). -/
def operandImm : Instr → Data
  | .loadWeight _ imm | .readNode imm | .readCodeWord _ imm | .bseqAddBit imm | .bseqAppendBits _ imm
  | .readBseqWord imm => imm
  | .nop | .softReset | .readStatus | .readError | .clearError | .readWeight _ | .clearWeights | .build | .genTable
  | .readCodeLen _ | .encode _ | .bseqClear | .readBseqLen => 0

/-- The command's word: OPC, A, the reserved zeros, IMM (R74, R75). -/
def encode (i : Instr) : CmdWord := opcodeOf i ++ operandA i ++ 0#16 ++ operandImm i

/-- The 64-bit word of a row of spec/opcode_table.json: its `nbits` bits as given, every bit above them 0 (R83: a command
is exactly one 64-bit word; log 11). -/
def tableWord (nbits w : Nat) : CmdWord := BitVec.ofNat 64 (w % 2 ^ nbits)

/-- What the decoder reads from a table word. The open capacity is the machine's own (log 1, log 11). -/
def decodeTableWord (nbits w : Nat) : Option Instr := (decode Config.bseqCap (tableWord nbits w)).toOption

end Sys2Proof
end

