-- ==== Sys2Proof/Machine/State.lean ====
section
/-! DEFINITION. The machine's state: every storage and register of 10_state.md, the command and response channels of
30_encoding.md section 1, and what the model holds of the host's inputs (INVENTORY.md, State). -/

namespace Sys2Proof.Machine

/-- A node entry of the arena (R23). KIND, SYM, LEFT and RIGHT of an entry are read from it by the functions of
Operands.lean; a field the kind does not use reads 0 (log 9). -/
inductive Node where
  /-- KIND = 0: a leaf holding its symbol. -/
  | leaf (sym : Sym)
  /-- KIND = 1: an internal node holding the indices of its two children. -/
  | internal (left right : NodeIdx)
  deriving DecidableEq, Repr

/-- An entry of the lookup table: VALID and CODE, first branch first (R27). -/
structure LtEntry where
  valid : Bool
  code : Bits
  deriving DecidableEq, Repr

/-- `{VALID = 0, CODE = []}`, what every clear of LT writes (R27). -/
def LtEntry.cleared : LtEntry := ⟨false, []⟩

/-- A table of NSYM = 256 entries indexed by symbol (R22, R27): the entry of symbol s is element s of the list, and a table
of another size cannot be built. -/
structure SymTable (α : Type) where
  entries : List α
  size : entries.length = Config.nsym
  deriving DecidableEq, Repr

/-- The table whose every entry is `a`. -/
def SymTable.filled {α : Type} (a : α) : SymTable α := ⟨List.replicate Config.nsym a, List.length_replicate⟩

/-- W: 256 weights (R22). -/
abbrev WeightTable := SymTable Weight

/-- LT: 256 entries (R27). -/
abbrev LookupTable := SymTable LtEntry

/-- The empty frequency table: every weight 0 (R102, R38). -/
def WeightTable.zero : WeightTable := SymTable.filled 0

/-- The cleared lookup table (R27, R38). -/
def LookupTable.cleared : LookupTable := SymTable.filled LtEntry.cleared

/-- The error kinds of R200. -/
inductive ErrKind where
  /-- BUILD on a table with no non-zero weight (R110). -/
  | insufficientNodes
  /-- ENCODE of a symbol with no code (R170). -/
  | symbolNotFound
  /-- Assigned a code and never raised (R200, D37). -/
  | mismatchedInputLengths
  /-- An append past BSEQ_CAP_BITS (R150). -/
  | capacityExceeded
  /-- A word that decoding rejects (R80). -/
  | illegalCommand
  /-- GEN_TABLE without a tree, READ_NODE past it (R130, R111). -/
  | sequenceError
  deriving DecidableEq, Repr

/-- Where the core stands on its two channels (R71, R72, R230, R232). -/
inductive Phase where
  /-- After a reset edge, until the reset clear is done: cmd_ready = 0, no response (R230, R232). -/
  | clearing
  /-- cmd_ready = 1, no command in flight (R233). -/
  | ready
  /-- A command was accepted and has its response, not yet raised: cmd_ready = 0, rsp_valid = 0 (R72). -/
  | working (rsp : RspWord)
  /-- rsp_valid = 1 and rsp_data = `rsp`, held until the response transfers (R71). -/
  | answering (rsp : RspWord)
  deriving DecidableEq, Repr

/-- The inputs sampled at one rising edge of clk (R70), and the implementation's latency choice at that edge: with
`busy`, a command in flight or a reset clear takes longer than this edge (R232, R242; log 2, log 3). -/
structure Edge where
  rstN : Bool
  cmdValid : Bool
  cmdData : CmdWord
  rspReady : Bool
  busy : Bool
  deriving DecidableEq, Repr

/-- What stops a step. -/
inductive Fault where
  /-- Raised by the clock edge (Channel.lean) when the host withdraws or changes a command it has offered and that has not
  transferred, against R71: the core's behaviour is then not specified (R235), and such a host has no move
  (93_implementation_defined.md row 11, stuck). Safe: the model stops where the hardware goes on (log 5). -/
  | hostBrokeHandshake
  deriving DecidableEq, Repr

/-- Why an instruction is refused. -/
inductive Refusal where
  /-- Raised by an arm of `exec` that has no meaning yet; no arm raises it. Safe: the model stops. -/
  | notModelled (mnemonic : String)
  deriving DecidableEq, Repr

/-- The state of the Huffman core and of its two channels. -/
structure State where
  /-- W, the weight table (R22). -/
  w : WeightTable
  /-- NODE, the node arena (R23). -/
  node : List Node
  /-- NODE_COUNT (R24). -/
  nodeCount : BitVec 10
  /-- ROOT (R25). -/
  root : NodeIdx
  /-- TREE_VALID (R26). -/
  treeValid : Bool
  /-- LT, the lookup table (R27). -/
  lt : LookupTable
  /-- TABLE_VALID (R28). -/
  tableValid : Bool
  /-- BSEQ, the bit accumulator, first bit first (R29). -/
  bseq : Bits
  /-- BSEQ_LEN (R30). -/
  bseqLen : BitVec 32
  /-- BSEQ_TAINT (R31). -/
  bseqTaint : Bool
  /-- ERR_CODE (R32). -/
  errCode : BitVec 8
  /-- ERR_OPC (R32). -/
  errOpc : BitVec 8
  /-- ERR_ARG (R32). -/
  errArg : BitVec 8
  /-- ERR_MULTI (R32). -/
  errMulti : Bool
  /-- The parameter BSEQ_CAP_BITS of this core, which no step writes (R5, D16; log 1). -/
  bseqCap : BseqCap
  /-- Where the core stands on its channels (R71, R72). -/
  phase : Phase
  /-- The word the host offered at the last edge and that did not transfer (R71; log 5). -/
  offered : Option CmdWord
  /-- The input samples of the coming edges, oldest first (R70; log 2). -/
  script : List Edge
  /-- The responses transferred so far, oldest first: the observation of a run (R243; log 8). -/
  responses : List RspWord
  deriving DecidableEq, Repr

/-- How a command ends. -/
abbrev Result := Host.Outcome State Fault Refusal

/-- The core right after reset: R38's values, idle with cmd_ready = 1 (R233), at any allowed capacity (log 1); no input
sampled, nothing offered, no response given (log 7). -/
def State.reset : State where
  w := WeightTable.zero
  node := []
  nodeCount := 0
  root := 0
  treeValid := false
  lt := LookupTable.cleared
  tableValid := false
  bseq := []
  bseqLen := 0
  bseqTaint := false
  errCode := 0
  errOpc := 0
  errArg := 0
  errMulti := false
  bseqCap := Config.bseqCap
  phase := .ready
  offered := none
  script := []
  responses := []

end Sys2Proof.Machine
end

