-- ==== Sys2Proof/Machine/Operands.lean ====
section
/-! DEFINITION. The forms in which operands and stored values cross the interface: bit strings from an operand, and the
32-bit views of bit strings, nodes and codes (20_memory.md R53, 42_tree_builder.md R111, 43_code_table.md R132). -/

namespace Sys2Proof.Machine

/-- The value of a bit string read as a number, its first bit least significant. -/
def bitsValue : Bits → Nat
  | [] => 0
  | b :: q => b.toNat + 2 * bitsValue q

/-- `word(q, k)`: bit j is q[32k + j], and 0 past the end of q (R53). -/
def wordView (q : Bits) (k : Nat) : Data := BitVec.ofNat 32 (bitsValue ((q.drop (32 * k)).take 32))

/-- `[IMM[0], IMM[1], ..., IMM[N-1]]`, empty for N = 0 (R153). -/
def immBits (n : BitVec 8) (imm : Data) : Bits := (List.range n.toNat).map fun j => imm.getLsbD j

/-- KIND of a node entry: false for 0 (leaf), true for 1 (internal) (R23). -/
def Node.kind : Node → Bool
  | .leaf _ => false
  | .internal _ _ => true

/-- SYM of a node entry, 0 for an internal node (R23). -/
def Node.symField : Node → Sym
  | .leaf sym => sym
  | .internal _ _ => 0

/-- LEFT of a node entry, 0 for a leaf (R23). -/
def Node.leftField : Node → NodeIdx
  | .leaf _ => 0
  | .internal l _ => l

/-- RIGHT of a node entry, 0 for a leaf (R23). -/
def Node.rightField : Node → NodeIdx
  | .leaf _ => 0
  | .internal _ r => r

/-- READ_NODE's view of an entry: the symbol of a leaf, or {1, 13 zeros, RIGHT, LEFT} of an internal node (R111). -/
def nodeWord (e : Node) : Data :=
  match e.kind with
  | false => e.symField.setWidth 32
  | true => 1#1 ++ 0#13 ++ e.rightField ++ e.leftField

/-- READ_CODE_LEN's view of an entry: {23 zeros, VALID, LEN} (R132). -/
def codeLenWord (e : LtEntry) : Data := 0#23 ++ BitVec.ofBool e.valid ++ BitVec.ofNat 8 e.code.length

end Sys2Proof.Machine
end

