-- ==== Sys2Proof/Machine/Ops.lean ====
section
/-! DEFINITION. The named operations over the core's storages, and the ways a command ends: respond, and raise with the
error-recording rule of 60_exceptions.md R202. -/

namespace Sys2Proof.Machine

/-! ### Reading and writing the tables -/

/-- NAME[sym] of a table indexed by symbol: W[sym] or LT[sym] (R9, R22, R27). -/
def SymTable.get {α : Type} (t : SymTable α) (sym : Sym) : α := t.entries[sym.toNat]'(t.size ▸ sym.isLt)

/-- NAME[sym] <- a of a table indexed by symbol (R9, R22, R27). -/
def SymTable.set {α : Type} (t : SymTable α) (sym : Sym) (a : α) : SymTable α :=
  ⟨t.entries.set sym.toNat a, by rw [List.length_set]; exact t.size⟩

/-! ### Ending a command -/

/-- The response word: RC in [63:56], zeros in [55:32], DATA in [31:0] (R77). -/
def responseWord (rc : BitVec 8) (data : Data) : RspWord := rc ++ 0#24 ++ data

/-- The error codes of R200. -/
def ErrKind.code : ErrKind → BitVec 8
  | .insufficientNodes => 1
  | .symbolNotFound => 2
  | .mismatchedInputLengths => 3
  | .capacityExceeded => 4
  | .illegalCommand => 5
  | .sequenceError => 6

/-- `respond(data)`: the command succeeds with RC = 0 (R11). -/
def respond (data : Data) (s : State) : Result := .next { s with phase := .working (responseWord 0 data) }

/-- `record_error(code, opc, arg)`: the first error is kept, a further one sets ERR_MULTI (R202). -/
def recordError (code opc arg : BitVec 8) (s : State) : State :=
  if s.errCode = 0 then { s with errCode := code, errOpc := opc, errArg := arg }
  else { s with errMulti := true }

/-- `raise e(arg)` in a command with opcode byte `opc`: the error is recorded over the writes made so far, and the response
carries its code and its argument (R11, R202). -/
def raise (e : ErrKind) (opc : Opcode) (arg : BitVec 8) (s : State) : Result :=
  .next { recordError e.code opc arg s with phase := .working (responseWord e.code (arg.setWidth 32)) }

/-! ### Appending to the bit accumulator -/

/-- `n` bits fit in the accumulator: n <= BSEQ_CAP_BITS (R150). Up to 32 bits fit at every capacity, and saying so first
lets the test be evaluated on them with the parameter left open. -/
def fits (cap : BseqCap) (n : Nat) : Bool := Nat.ble n 32 || Nat.ble n cap.bits

/-- The writes of `append(c, ·)` when `c` fits, none when it does not (R150). -/
def appended (c : Bits) (s : State) : Option State :=
  if fits s.bseqCap (s.bseqLen.toNat + c.length) then
    some { s with bseq := s.bseq ++ c, bseqLen := s.bseqLen + BitVec.ofNat 32 c.length }
  else none

/-- `append(c, arg)` and then `respond(0)`: the whole of `c` is appended, or BSEQ_TAINT is set and CAPACITY_EXCEEDED(arg)
raised with nothing appended (R150). -/
def appendCommand (opc : Opcode) (arg : BitVec 8) (c : Bits) (s : State) : Result :=
  match appended c s with
  | some t => respond 0 t
  | none => raise .capacityExceeded opc arg { s with bseqTaint := true }

/-! ### Discarding and resetting -/

/-- What BUILD first discards: the tree and the lookup table (R110, D11). -/
def discardTree (s : State) : State :=
  { s with treeValid := false, tableValid := false, node := [], nodeCount := 0, root := 0, lt := LookupTable.cleared }

/-- Every storage and register of 10_state.md to its reset value (R38): the common part of SOFT_RESET (R191) and of reset by
rst_n (R230), which leave identical state (R231). -/
def resetStorage (s : State) : State :=
  { s with
    w := WeightTable.zero, node := [], nodeCount := 0, root := 0, treeValid := false,
    lt := LookupTable.cleared, tableValid := false, bseq := [], bseqLen := 0, bseqTaint := false,
    errCode := 0, errOpc := 0, errArg := 0, errMulti := false }

end Sys2Proof.Machine
end

