-- ==== Sys2Proof/Machine/BitSequence.lean ====
section
/-! DEFINITION. The bit accumulator commands (44_bit_sequence.md). -/

namespace Sys2Proof.Machine

/-- BSEQ_CLEAR starts a new, empty sequence and clears the taint, not the error register (R151). -/
def execBseqClear (s : State) : Result := respond 0 { s with bseq := [], bseqLen := 0, bseqTaint := false }

/-- BSEQ_ADD_BIT appends IMM[0] (R152). -/
def execBseqAddBit (imm : Data) (s : State) : Result :=
  appendCommand (opcodeOf (.bseqAddBit imm)) 0 [imm.getLsbD 0] s

/-- BSEQ_APPEND_BITS appends IMM[0] to IMM[N-1] (R153). -/
def execBseqAppendBits (n : BitVec 8) (imm : Data) (s : State) : Result :=
  appendCommand (opcodeOf (.bseqAppendBits n imm)) 0 (immBits n imm) s

/-- READ_BSEQ_LEN returns BSEQ_LEN (R154). -/
def execReadBseqLen (s : State) : Result := respond s.bseqLen s

/-- READ_BSEQ_WORD returns word(BSEQ, IMM) (R155). -/
def execReadBseqWord (imm : Data) (s : State) : Result := respond (wordView s.bseq imm.toNat) s

end Sys2Proof.Machine
end

