-- ==== Sys2Proof/Machine/CodeTable.lean ====
section
/-! DEFINITION. The code-table generator commands (43_code_table.md): the traversal of GEN_TABLE and the code readbacks. -/

namespace Sys2Proof.Machine

/-- `visit(i, c)` of R130, at most `depth` levels deep: a leaf records the accumulated code, an internal node is visited left
with a 0 bit and right with a 1 bit. An index with no node records nothing (log 12). -/
def visit (node : List Node) : Nat → NodeIdx → Bits → LookupTable → LookupTable
  | 0, _, _, lt => lt
  | depth + 1, i, c, lt =>
    match node[i.toNat]? with
    | none => lt
    | some (.leaf sym) => lt.set sym ⟨true, c⟩
    | some (.internal l r) => visit node depth r (c ++ [true]) (visit node depth l (c ++ [false]) lt)

/-- The lookup table of a tree: every entry cleared, then the traversal from the root (R130). A tree is never deeper than it has
nodes (R131; log 12). -/
def tableOf (node : List Node) (root : NodeIdx) : LookupTable :=
  visit node node.length root [] LookupTable.cleared

/-- GEN_TABLE fills LT from the tree, or raises SEQUENCE_ERROR(0) without one (R130). -/
def execGenTable (s : State) : Result :=
  match s.treeValid with
  | false => raise .sequenceError (opcodeOf .genTable) 0 s
  | true => respond 0 { s with lt := tableOf s.node s.root, tableValid := true }

/-- READ_CODE_LEN returns VALID and LEN of a symbol's entry (R132). -/
def execReadCodeLen (sym : Sym) (s : State) : Result := respond (codeLenWord (s.lt.get sym)) s

/-- READ_CODE_WORD returns word(LT[SYM].CODE, IMM) (R133). -/
def execReadCodeWord (sym : Sym) (imm : Data) (s : State) : Result :=
  respond (wordView (s.lt.get sym).code imm.toNat) s

end Sys2Proof.Machine
end

