-- ==== Sys2Proof/Machine/Flags.lean ====
section
/-! DEFINITION. The STATUS and ERROR words and the one computed flag (10_state.md R33, R34). -/

namespace Sys2Proof.Machine

/-- ERR_PENDING: an error is recorded (R33). -/
def errPending (s : State) : Bool := s.errCode != 0

/-- The STATUS word: {5 zeros, ROOT, NODE_COUNT, 3 zeros, ERR_MULTI, ERR_PENDING, BSEQ_TAINT, TABLE_VALID, TREE_VALID}
(R33, R192). -/
def statusWord (s : State) : Data :=
  0#5 ++ s.root ++ s.nodeCount ++ 0#3 ++ BitVec.ofBool s.errMulti ++ BitVec.ofBool (errPending s)
    ++ BitVec.ofBool s.bseqTaint ++ BitVec.ofBool s.tableValid ++ BitVec.ofBool s.treeValid

/-- The ERROR word: {7 zeros, ERR_MULTI, ERR_ARG, ERR_OPC, ERR_CODE} (R34, R193). -/
def errorWord (s : State) : Data := 0#7 ++ BitVec.ofBool s.errMulti ++ s.errArg ++ s.errOpc ++ s.errCode

end Sys2Proof.Machine
end

