-- ==== Sys2Proof/Machine/Control.lean ====
section
/-! DEFINITION. The block-control commands (46_control.md). -/

namespace Sys2Proof.Machine

/-- NOP does nothing and succeeds (R190). -/
def execNop (s : State) : Result := respond 0 s

/-- SOFT_RESET puts every piece of state to its reset value and then responds (R191). -/
def execSoftReset (s : State) : Result := respond 0 (resetStorage s)

/-- READ_STATUS returns the STATUS word (R192). -/
def execReadStatus (s : State) : Result := respond (statusWord s) s

/-- READ_ERROR returns the ERROR word and does not clear the error register (R193). -/
def execReadError (s : State) : Result := respond (errorWord s) s

/-- CLEAR_ERROR empties the error register and nothing else: BSEQ_TAINT stays (R194). -/
def execClearError (s : State) : Result :=
  respond 0 { s with errCode := 0, errOpc := 0, errArg := 0, errMulti := false }

end Sys2Proof.Machine
end

