-- ==== Sys2Proof/Machine/Encoder.lean ====
section
/-! DEFINITION. The encoder command (45_encoder.md). -/

namespace Sys2Proof.Machine

/-- ENCODE appends the symbol's code, or sets BSEQ_TAINT and raises SYMBOL_NOT_FOUND(SYM) when there is none; the lookup comes
before the capacity test (R170, R205). -/
def execEncode (sym : Sym) (s : State) : Result :=
  match (s.lt.get sym).valid with
  | false => raise .symbolNotFound (opcodeOf (.encode sym)) sym { s with bseqTaint := true }
  | true => appendCommand (opcodeOf (.encode sym)) sym (s.lt.get sym).code s

end Sys2Proof.Machine
end

