-- ==== Sys2Proof/Machine/TreeBuilder.lean ====
section
/-! DEFINITION. The tree builder commands (42_tree_builder.md): the greedy merge of BUILD, and READ_NODE. -/

namespace Sys2Proof.Machine

/-- An entry (WT, ND) of the working set (R35). -/
structure WsEntry where
  wt : MergedWeight
  nd : NodeIdx
  deriving DecidableEq, Repr

/-- The symbols 0 to 255, ascending. -/
def allSymbols : List Sym := (List.range 256).map (BitVec.ofNat 8)

/-- The order of the initial leaves: ascending by the pair (weight, symbol) (R110 step 1, D7). -/
def leafBefore (a b : Weight × Sym) : Bool :=
  a.1.toNat < b.1.toNat || (a.1.toNat == b.1.toNat && a.2.toNat ≤ b.2.toNat)

/-- The list L of R110 step 1, each symbol of non-zero weight with its weight, sorted ascending. -/
def sortedLeaves (w : WeightTable) : List (Weight × Sym) :=
  ((w.entries.zip allSymbols).filter fun p => p.1 != 0).insertionSort fun a b => leafBefore a b = true

/-- Insertion at the least position whose entry weighs at least as much: before every entry of equal weight (R110 step 2, D8). -/
def insertWs (e : WsEntry) : List WsEntry → List WsEntry
  | [] => [e]
  | x :: ws => if e.wt.toNat ≤ x.wt.toNat then e :: x :: ws else x :: insertWs e ws

/-- BUILD under way: the working set, the arena and NODE_COUNT (R35, R110). -/
structure Forest where
  ws : List WsEntry
  node : List Node
  count : BitVec 10
  deriving DecidableEq, Repr

/-- After step 1: one leaf per weighted symbol, in order, at arena indices 0 to n - 1 (R110). -/
def initialForest (leaves : List (Weight × Sym)) : Forest where
  ws := leaves.zipIdx.map fun p => ⟨p.1.1.setWidth 40, BitVec.ofNat 9 p.2⟩
  node := leaves.map fun p => .leaf p.2
  count := BitVec.ofNat 10 leaves.length

/-- One pass of step 2's loop: the two first entries become the children of a new node, left then right, and the node
re-enters the working set with the 40-bit sum of their weights (R110). With fewer than two entries the loop is over. -/
def mergeStep (f : Forest) : Forest :=
  match f.ws with
  | l :: r :: rest =>
    { ws := insertWs ⟨l.wt + r.wt, f.count.setWidth 9⟩ rest
      node := f.node ++ [.internal l.nd r.nd]
      count := f.count + 1 }
  | _ => f

/-- `n` passes of the loop. -/
def mergeLoop : Nat → Forest → Forest
  | 0, f => f
  | n + 1, f => mergeLoop n (mergeStep f)

/-- Step 3's root: ND of the working set's one entry (R110). -/
def rootOf (f : Forest) : NodeIdx :=
  match f.ws with
  | e :: _ => e.nd
  | [] => 0

/-- The tree of a weight table: none when no weight is non-zero, otherwise the forest after n - 1 merges of its n leaves (R110,
R195). It is a function of W alone (R116). -/
def buildForest (w : WeightTable) : Option Forest :=
  match sortedLeaves w with
  | [] => none
  | leaves => some (mergeLoop (leaves.length - 1) (initialForest leaves))

/-- BUILD discards the old tree and table, then builds the tree of the current weights or raises INSUFFICIENT_NODES(0) (R110). -/
def execBuild (s : State) : Result :=
  match buildForest s.w with
  | none => raise .insufficientNodes (opcodeOf .build) 0 (discardTree s)
  | some f =>
    respond 0 { discardTree s with node := f.node, nodeCount := f.count, root := rootOf f, treeValid := true }

/-- READ_NODE returns a node, or raises SEQUENCE_ERROR(0) at or above NODE_COUNT (R111). An index below NODE_COUNT always finds
its entry, since NODE_COUNT = len(NODE) (R24; log 12). -/
def execReadNode (imm : Data) (s : State) : Result :=
  if s.nodeCount.toNat ≤ imm.toNat then raise .sequenceError (opcodeOf (.readNode imm)) 0 s
  else
    match s.node[imm.toNat]? with
    | some e => respond (nodeWord e) s
    | none => raise .sequenceError (opcodeOf (.readNode imm)) 0 s

end Sys2Proof.Machine
end

