-- ==== Sys2Proof/Machine/Weights.lean ====
section
/-! DEFINITION. The weight table commands (41_weight_table.md). -/

namespace Sys2Proof.Machine

/-- LOAD_WEIGHT sets W[SYM] and touches neither tree nor table (R100). -/
def execLoadWeight (sym : Sym) (imm : Data) (s : State) : Result := respond 0 { s with w := s.w.set sym imm }

/-- READ_WEIGHT returns W[SYM] (R101). -/
def execReadWeight (sym : Sym) (s : State) : Result := respond (s.w.get sym) s

/-- CLEAR_WEIGHTS sets every weight to 0 (R102). -/
def execClearWeights (s : State) : Result := respond 0 { s with w := WeightTable.zero }

end Sys2Proof.Machine
end

