-- ==== Sys2Proof/Machine/Dispatch.lean ====
section
/-! DEFINITION. One arm per command: "execute rule of opc" of 30_encoding.md R80. -/

namespace Sys2Proof.Machine

def exec (i : Instr) (s : State) : Host.Outcome State Fault Refusal :=
  match i with
  -- Block control (46_control.md)
  | .nop => Sys2Proof.Machine.execNop s
  | .softReset => Sys2Proof.Machine.execSoftReset s
  | .readStatus => Sys2Proof.Machine.execReadStatus s
  | .readError => Sys2Proof.Machine.execReadError s
  | .clearError => Sys2Proof.Machine.execClearError s
  -- Weight table (41_weight_table.md)
  | .loadWeight sym imm => Sys2Proof.Machine.execLoadWeight sym imm s
  | .readWeight sym => Sys2Proof.Machine.execReadWeight sym s
  | .clearWeights => Sys2Proof.Machine.execClearWeights s
  -- Tree builder (42_tree_builder.md)
  | .build => Sys2Proof.Machine.execBuild s
  | .readNode imm => Sys2Proof.Machine.execReadNode imm s
  -- Code-table generator (43_code_table.md)
  | .genTable => Sys2Proof.Machine.execGenTable s
  | .readCodeLen sym => Sys2Proof.Machine.execReadCodeLen sym s
  | .readCodeWord sym imm => Sys2Proof.Machine.execReadCodeWord sym imm s
  -- Encoder (45_encoder.md)
  | .encode sym => Sys2Proof.Machine.execEncode sym s
  -- Bit accumulator (44_bit_sequence.md)
  | .bseqClear => Sys2Proof.Machine.execBseqClear s
  | .bseqAddBit imm => Sys2Proof.Machine.execBseqAddBit imm s
  | .bseqAppendBits n imm => Sys2Proof.Machine.execBseqAppendBits n imm s
  | .readBseqLen => Sys2Proof.Machine.execReadBseqLen s
  | .readBseqWord imm => Sys2Proof.Machine.execReadBseqWord imm s

end Sys2Proof.Machine
end

