-- ==== Sys2Proof/Machine/Channel.lean ====
section
/-! DEFINITION. The command and response channels (30_encoding.md R70 to R73) and reset by rst_n
(70_reset_and_hazards.md R230 to R233): what one rising edge of clk does. -/

namespace Sys2Proof.Machine

/-! ### Outputs -/

/-- cmd_ready: the core can accept a command (R70, R72). -/
def cmdReady (s : State) : Bool :=
  match s.phase with
  | .ready => true
  | .clearing | .working _ | .answering _ => false

/-- rsp_valid, with rsp_data when it is 1 (R70, R71). -/
def rspOffered (s : State) : Option RspWord :=
  match s.phase with
  | .answering rsp => some rsp
  | .clearing | .ready | .working _ => none

/-! ### Accepting a command -/

/-- One command at the transaction level: decode the word, then run its rule, or raise ILLEGAL_COMMAND(subcause) with the word's
opcode byte and no other change of state (R72, R80, R201). -/
def acceptWord (w : CmdWord) (s : State) : Result :=
  match decode s.bseqCap w with
  | .ok i => exec i s
  | .error why => raise .illegalCommand (opcField w) why.subcause s

/-- The core raises rsp_valid with the response of the command it has executed (R72). -/
def raiseResponse (s : State) : State :=
  match s.phase with
  | .working rsp => { s with phase := .answering rsp }
  | .clearing | .ready | .answering _ => s

/-- After a command was accepted: its response is raised at this edge, or later when the implementation needs longer (R72,
R242). -/
def finish (busy : Bool) : Result → Result
  | .next t => .next (if busy then t else raiseResponse t)
  | .fault r => .fault r
  | .refused r => .refused r

/-! ### One rising edge -/

/-- What the host offers at an edge (R70). -/
def Edge.offer (e : Edge) : Option CmdWord := if e.cmdValid then some e.cmdData else none

/-- The host keeps its hold duty at this edge: a word offered before and not transferred is offered still (R71). -/
def handshakeKept (s : State) (e : Edge) : Bool := s.offered.isNone || s.offered == e.offer

/-- An edge with rst_n = 0: all storage reset, the command in progress and the response on offer dropped, cmd_ready = 0 (R230,
R206). What the host was offering is forgotten (log 6). -/
def resetEdge (s : State) : State := { resetStorage s with phase := .clearing, offered := none }

/-- An edge with rst_n = 1, by the phase the core is in (R71, R72, R232). -/
def runEdge (e : Edge) (s : State) : Result :=
  match s.phase with
  | .clearing => .next { s with phase := if e.busy then .clearing else .ready, offered := e.offer }
  | .ready =>
    match e.offer with
    | some w => finish e.busy (acceptWord w { s with offered := none })
    | none => .next { s with offered := none }
  | .working rsp => .next { s with phase := if e.busy then .working rsp else .answering rsp, offered := e.offer }
  | .answering rsp =>
    match e.rspReady with
    | true => .next { s with phase := .ready, responses := s.responses ++ [rsp], offered := e.offer }
    | false => .next { s with offered := e.offer }

/-- One rising edge of clk whose inputs are sampled as `e` (R70). Reset takes priority over everything (R206). -/
def clockEdge (e : Edge) (s : State) : Result :=
  match e.rstN with
  | false => .next (resetEdge s)
  | true =>
    match handshakeKept s e with
    | true => runEdge e s
    | false => .fault .hostBrokeHandshake

/-- The edge at which a host offers `w`, and nothing else happens on the channels; the core answers at once. -/
def offerEdge (w : CmdWord) : Edge := ⟨true, true, w, false, false⟩

/-- `s`, ready for a command, with the word `w` offered at its next edge. -/
def offerNext (w : CmdWord) (s : State) : State :=
  { s with phase := .ready, offered := none, script := offerEdge w :: s.script }

/-- The next edge of the script. With no sample left no edge comes, and the core keeps its state (R214; log 2). -/
def nextEdge (s : State) : Result :=
  match s.script with
  | [] => .next s
  | e :: rest => clockEdge e { s with script := rest }

end Sys2Proof.Machine
end

