-- ==== Sys2Proof/Machine/Step.lean ====
section
/-! DEFINITION. One step of the machine: one rising edge of clk (30_encoding.md R70). -/

namespace Sys2Proof.Machine

/-- One step: the next edge of the script. -/
def step (s : State) : Host.Outcome State Fault Refusal := nextEdge s

/-- `s` with the table word `w` offered by the host at the very next edge, which the core, ready, accepts (log 10, log 11). -/
def State.withFetchWord (s : State) (nbits w : Nat) : State := offerNext (tableWord nbits w) s

end Sys2Proof.Machine
end

