-- ==== Sys2Proof/Machine/Assembler.lean ====
section
/-! DEFINITION. The spec's assembler (30_encoding.md R84) on a line already split into its mnemonic and its operands, and the
pseudo-instructions (R85) with the boot sequence (70_reset_and_hazards.md R236). None of it is part of the machine: it
says which commands a host sends. -/

namespace Sys2Proof.Machine

/-- An operand as R84 writes it: a number, in any radix, or a character literal standing for its byte value. -/
inductive AsmOperand where
  | number (n : Nat)
  | character (c : Char)
  deriving DecidableEq, Repr

/-- The value of an operand (R84). R84 gives a character literal "its byte value", with an ASCII example, and names no character
encoding: that it is the Unicode code point, beyond ASCII as well, is the model's choice (DESIGN CHOICE, log 18). -/
def AsmOperand.value : AsmOperand → Nat
  | .number n => n
  | .character c => c.toNat

/-- The values of fields A and IMM that an operand list gives a format: the operands in the order A, IMM, only those the format
takes; none for another number of operands or for one that its field cannot hold. A character literal is a SYM (R75, R84; log 13). -/
def asmFields : Format → List AsmOperand → Option (BitVec 8 × Data)
  | .z, [] => some (0, 0)
  | .s, [a] => if a.value < 256 then some (BitVec.ofNat 8 a.value, 0) else none
  | .si, [a, .number v] =>
    if a.value < 256 ∧ v < 4294967296 then some (BitVec.ofNat 8 a.value, BitVec.ofNat 32 v) else none
  | .i, [.number v] => if v < 4294967296 then some (0, BitVec.ofNat 32 v) else none
  | .ni, [.number n, .number v] =>
    if n ≤ 32 ∧ v < 4294967296 then some (BitVec.ofNat 8 n, BitVec.ofNat 32 v) else none
  | _, _ => none

/-- The command of the line `MNEMONIC operand, operand` (R84). -/
def assemble (mnemonic : String) (operands : List AsmOperand) : Option Instr :=
  match opcodeTable.find? (fun row => row.mnemonic == mnemonic) with
  | none => none
  | some row => (asmFields row.format operands).map fun f => row.command f.1 f.2

/-- `LOAD_TABLE {s1: w1, ...}`: CLEAR_WEIGHTS, then LOAD_WEIGHT for each pair in ascending symbol order (R85). Pairs
with the same symbol keep the order given (DESIGN CHOICE, log 16). -/
def loadTable (pairs : List (Sym × Weight)) : List Instr :=
  .clearWeights ::
    ((pairs.insertionSort fun a b => a.1.toNat ≤ b.1.toNat).map fun p => .loadWeight p.1 p.2)

/-- `ENCODE_STR "text"`: ENCODE for each byte, first byte first; nothing for the empty text (R85). -/
def encodeStr (text : List Sym) : List Instr := text.map .encode

/-- Consecutive groups of at most 32 bits, first group first; `fuel` bounds the number of groups. R85 leaves the sizes open:
every group has 32 bits but the last, which has the rest, is the model's choice (DESIGN CHOICE, log 15). -/
def groupsOf32 : Nat → Bits → List Bits
  | 0, _ => []
  | _ + 1, [] => []
  | fuel + 1, b :: q => (b :: q).take 32 :: groupsOf32 fuel ((b :: q).drop 32)

/-- `BSEQ_APPEND_STR "b0 b1 ..."`: one BSEQ_APPEND_BITS per group, the group's first bit in IMM[0] and N its size (R85); the cut
into groups is log 15's. -/
def bseqAppendStr (q : Bits) : List Instr :=
  (groupsOf32 q.length q).map fun g => .bseqAppendBits (BitVec.ofNat 8 g.length) (BitVec.ofNat 32 (bitsValue g))

/-- `SETUP`: BUILD, GEN_TABLE, BSEQ_CLEAR (R85). -/
def setup : List Instr := [.build, .genTable, .bseqClear]

/-! ### The boot sequence (R236): a host whose next command follows from the responses it has got -/

/-- R236 step 1: the host resets the core by rst_n, which is no command, or by SOFT_RESET. -/
inductive BootReset where
  | hardware
  | software
  deriving DecidableEq, Repr

/-- The commands of step 1. -/
def BootReset.commands : BootReset → List Instr
  | .hardware => []
  | .software => [.softReset]

/-- What a host brings to the boot: how it resets, the counts of its text's symbols, the text, and whether it wants the bits. -/
structure BootPlan where
  reset : BootReset
  counts : List (Sym × Weight)
  text : List Sym
  wantBits : Bool
  deriving DecidableEq, Repr

/-- Steps 1 to 3, up to BUILD. -/
def bootToBuild (p : BootPlan) : List Instr := p.reset.commands ++ loadTable p.counts ++ [.build]

/-- Steps 4 to 8, up to READ_BSEQ_LEN. -/
def bootToLength (p : BootPlan) : List Instr :=
  [.genTable, .bseqClear] ++ encodeStr p.text ++ [.readStatus, .readBseqLen]

/-- Step 8's readback: READ_BSEQ_WORD k for k = 0 .. ceil(BSEQ_LEN/32) - 1. -/
def readBack (bseqLen : Nat) : List Instr :=
  (List.range ((bseqLen + 31) / 32)).map fun k => .readBseqWord (BitVec.ofNat 32 k)

/-- The commands of R236, given the result code of BUILD's response and the DATA of READ_BSEQ_LEN's: on INSUFFICIENT_NODES the
host stops after BUILD (step 3), and the words are read if the bits are wanted (step 8). -/
def bootSequence (p : BootPlan) (buildRc : BitVec 8) (bseqLen : Data) : List Instr :=
  bootToBuild p ++
    if buildRc = ErrKind.insufficientNodes.code then []
    else bootToLength p ++ if p.wantBits then readBack bseqLen.toNat else []

/-- RC of response i, 0 while there is none (R77). -/
def rcAt (rsps : List RspWord) (i : Nat) : BitVec 8 := (rsps.getD i 0).extractLsb' 56 8

/-- DATA of response i, 0 while there is none (R77). -/
def dataAt (rsps : List RspWord) (i : Nat) : Data := (rsps.getD i 0).extractLsb' 0 32

/-- The host of R236: the command it sends after the responses `rsps`, oldest first, or none when it has stopped. Each
command follows from responses that have come by then. -/
def bootNext (p : BootPlan) (rsps : List RspWord) : Option Instr :=
  (bootSequence p (rcAt rsps ((bootToBuild p).length - 1))
    (dataAt rsps ((bootToBuild p).length + (bootToLength p).length - 1)))[rsps.length]?

/-- Step 7: BSEQ_TAINT = 0 and ERR_PENDING = 0 in the STATUS word, bits 2 and 3 (R33). What a host does when the check fails is
its own (R209); the host above goes on to step 8 (DESIGN CHOICE, log 17). -/
def bootStatusGood (status : Data) : Bool := !status.getLsbD 2 && !status.getLsbD 3

/-- The boot is over, and BSEQ the encoding of the text: BUILD did not fail, and step 7's check held. -/
def bootSucceeded (p : BootPlan) (rsps : List RspWord) : Bool :=
  (bootNext p rsps).isNone && rcAt rsps ((bootToBuild p).length - 1) != ErrKind.insufficientNodes.code &&
    bootStatusGood (dataAt rsps ((bootToBuild p).length + (bootToLength p).length - 2))

end Sys2Proof.Machine
end

