-- ==== Sys2Proof/Safety.lean ====
section
/-! DEFINITION. The terms in which claims about the core are stated: responses and recorded errors written out from the
spec, the shape of a tree and its codes, the invariants of 10_state.md R37, runs of commands, and the host-side readers of
45_encoder.md R174 and 44_bit_sequence.md R157. -/

namespace Sys2Proof.Safety

open Sys2Proof.Machine

/-! ### Ends of a command -/

/-- A response with RC = 0: {8 zeros, 24 zeros, DATA} (R77). -/
def okResponse (data : Data) : RspWord := 0#8 ++ 0#24 ++ data

/-- An error response: {RC = code, 24 zeros, 24 zeros, argument} (R77, R202). -/
def errResponse (code arg : BitVec 8) : RspWord := code ++ 0#24 ++ 0#24 ++ arg

/-- `s` with its command ended by the response `rsp`. -/
def responding (rsp : RspWord) (s : State) : State := { s with phase := .working rsp }

/-- `s` with an error recorded: the fields take it when ERR_CODE is 0, and otherwise only ERR_MULTI changes, to 1 (R202). -/
def withError (code opc arg : BitVec 8) (s : State) : State :=
  { s with
    errCode := if s.errCode = 0 then code else s.errCode
    errOpc := if s.errCode = 0 then opc else s.errOpc
    errArg := if s.errCode = 0 then arg else s.errArg
    errMulti := if s.errCode = 0 then s.errMulti else true }

/-- A failing command's end: the error recorded over the state `s` and answered (R11, R202). -/
def failing (code opc arg : BitVec 8) (s : State) : State := responding (errResponse code arg) (withError code opc arg s)

/-- The word `w` is rejected as ILLEGAL_COMMAND(`subcause`), and nothing but the error register changes (R80, R203). -/
def Rejected (subcause : BitVec 8) (w : CmdWord) (s : State) : Prop :=
  acceptWord w s = .next (failing 5 (w.extractLsb' 56 8) subcause s)

/-- The word `w`, accepted in state `s`, runs the command `i`. -/
def Runs (w : CmdWord) (i : Instr) (s : State) : Prop := acceptWord w s = exec i s

/-- The opcode byte of `w` is assigned (R79). -/
abbrev Assigned (w : CmdWord) : Prop :=
  w.extractLsb' 56 8 ∈ [0x00, 0x01, 0x02, 0x03, 0x04, 0x10, 0x11, 0x12, 0x20, 0x21, 0x30, 0x31, 0x32, 0x40,
    0x50, 0x51, 0x52, 0x53, 0x54]

/-- The bits of `w` that its opcode's format reserves are 0 (R79, R80). -/
abbrev ReservedZero (w : CmdWord) : Prop :=
  (w.extractLsb' 56 8 ∈ [0x00, 0x01, 0x02, 0x03, 0x04, 0x12, 0x20, 0x30, 0x50, 0x53] → w.extractLsb' 0 56 = 0) ∧
  (w.extractLsb' 56 8 ∈ [0x11, 0x31, 0x40] → w.extractLsb' 0 48 = 0) ∧
  (w.extractLsb' 56 8 ∈ [0x10, 0x32, 0x52] → w.extractLsb' 32 16 = 0) ∧
  (w.extractLsb' 56 8 ∈ [0x21, 0x51, 0x54] → w.extractLsb' 32 24 = 0)

/-- The operands of `w` lie in their static range: READ_NODE, READ_CODE_WORD, BSEQ_ADD_BIT, BSEQ_APPEND_BITS and READ_BSEQ_WORD
have one (R81). -/
abbrev InStaticRange (cap : BseqCap) (w : CmdWord) : Prop :=
  (w.extractLsb' 56 8 = 0x21 → (w.extractLsb' 0 32).toNat ≤ 510) ∧
  (w.extractLsb' 56 8 = 0x32 → (w.extractLsb' 0 32).toNat ≤ 7) ∧
  (w.extractLsb' 56 8 = 0x51 → (w.extractLsb' 0 32).toNat ≤ 1) ∧
  (w.extractLsb' 56 8 = 0x52 → (w.extractLsb' 48 8).toNat ≤ 32) ∧
  (w.extractLsb' 56 8 = 0x54 → (w.extractLsb' 0 32).toNat ≤ cap.bits / 32 - 1)

/-- The opcode `opc` has format Z and stands for `i`: its one word runs `i`, and any other reserved field is subcause 2 (R75, R80). -/
def ZFormat (opc : Opcode) (i : Instr) : Prop :=
  ∀ s : State, Runs (opc ++ 0#56) i s ∧
    ∀ w : CmdWord, w.extractLsb' 56 8 = opc → w.extractLsb' 0 56 ≠ 0 → Rejected 2 w s

/-- The opcode `opc` has format S and stands for `f` of its SYM (R75, R76, R80). -/
def SFormat (opc : Opcode) (f : Sym → Instr) : Prop :=
  ∀ s : State, (∀ sym : Sym, Runs (opc ++ sym ++ 0#48) (f sym) s) ∧
    ∀ w : CmdWord, w.extractLsb' 56 8 = opc → w.extractLsb' 0 48 ≠ 0 → Rejected 2 w s

/-- The opcode `opc` has format SI and stands for `f` of its SYM and IMM, the static range of IMM being `range` (R75, R76, R80,
R81). -/
def SIFormat (opc : Opcode) (f : Sym → Data → Instr) (range : Data → Prop) : Prop :=
  ∀ s : State, (∀ (sym : Sym) (imm : Data), range imm → Runs (opc ++ sym ++ 0#16 ++ imm) (f sym imm) s) ∧
    (∀ w : CmdWord, w.extractLsb' 56 8 = opc → w.extractLsb' 32 16 ≠ 0 → Rejected 2 w s) ∧
    ∀ (sym : Sym) (imm : Data), ¬ range imm → Rejected 3 (opc ++ sym ++ 0#16 ++ imm) s

/-- The opcode `opc` has format I and stands for `f` of its IMM, the static range of IMM being `range` (R75, R76, R80, R81). -/
def IFormat (opc : Opcode) (f : Data → Instr) (range : BseqCap → Data → Prop) : Prop :=
  ∀ s : State, (∀ imm : Data, range s.bseqCap imm → Runs (opc ++ 0#24 ++ imm) (f imm) s) ∧
    (∀ w : CmdWord, w.extractLsb' 56 8 = opc → w.extractLsb' 32 24 ≠ 0 → Rejected 2 w s) ∧
    ∀ imm : Data, ¬ range s.bseqCap imm → Rejected 3 (opc ++ 0#24 ++ imm) s

/-! ### The tree and its codes -/

/-- `Path node i c j`: from node `i` the branches `c` (false = 0 = left, true = 1 = right) lead to node `j` (R130). -/
inductive Path (node : List Node) : NodeIdx → Bits → NodeIdx → Prop where
  | here (i : NodeIdx) : Path node i [] i
  | left {i l r j : NodeIdx} {c : Bits} :
      node[i.toNat]? = some (.internal l r) → Path node l c j → Path node i (false :: c) j
  | right {i l r j : NodeIdx} {c : Bits} :
      node[i.toNat]? = some (.internal l r) → Path node r c j → Path node i (true :: c) j

/-- The bit string `c` is the path from the root to a leaf holding `sym` (R130). -/
def IsCode (node : List Node) (root : NodeIdx) (sym : Sym) (c : Bits) : Prop :=
  ∃ i : NodeIdx, Path node root c i ∧ node[i.toNat]? = some (.leaf sym)

/-- The leaves' symbols, in arena order. -/
def leafSymbols (node : List Node) : List Sym :=
  node.filterMap fun e => match e with
    | .leaf sym => some sym
    | .internal _ _ => none

/-- How many child fields, LEFT or RIGHT, of a node entry name node `c`. -/
def slotsOf (c : Nat) : Node → Nat
  | .leaf _ => 0
  | .internal l r => (if l.toNat = c then 1 else 0) + (if r.toNat = c then 1 else 0)

/-- How many child fields of the arena name node `c`. -/
def childSlots (node : List Node) (c : Nat) : Nat := (node.map (slotsOf c)).sum

/-- NODE with ROOT is a tree (R37(b), R113, R115). -/
structure IsTree (node : List Node) (root : NodeIdx) : Prop where
  /-- NODE_COUNT = 2n - 1 for n leaves (R113). -/
  count : node.length + 1 = 2 * (leafSymbols node).length
  /-- At most MAX_NODES nodes (R113). -/
  bounded : node.length ≤ 511
  /-- ROOT is the last node appended (R113). -/
  rootLast : root.toNat + 1 = node.length
  /-- Both children of an internal node have smaller indices (R115(a)). -/
  childrenBelow : ∀ (i : Nat) (l r : NodeIdx), node[i]? = some (.internal l r) → l.toNat < i ∧ r.toNat < i
  /-- Every node but the root is named by exactly one child field, the root by none (R115(b)). -/
  oneParent : ∀ c : Nat, c < node.length → childSlots node c = if c = root.toNat then 0 else 1
  /-- One leaf per symbol (R115(c)). -/
  distinctLeaves : (leafSymbols node).Nodup
  /-- Every node is reachable from the root (R115(d)). -/
  reachable : ∀ i : NodeIdx, i.toNat < node.length → ∃ c, Path node root c i

/-- The weight below each node, in arena order: a leaf's loaded weight, an internal node's sum, as true sums (R114). -/
def nodeWeights (w : WeightTable) (node : List Node) : List Nat :=
  node.foldl (fun acc e => acc ++ [match e with
    | .leaf sym => (w.get sym).toNat
    | .internal l r => acc.getD l.toNat 0 + acc.getD r.toNat 0]) []

/-- Node `j` is no child of an internal node below index `k`: at the merge that makes node `k` it is in the working set (R112). -/
def Available (node : List Node) (k j : Nat) : Prop :=
  j < k ∧ ∀ (p : Nat) (l r : NodeIdx), p < k → node[p]? = some (.internal l r) → l.toNat ≠ j ∧ r.toNat ≠ j

/-- Node `i` exists and is an internal node. -/
def isInternal (node : List Node) (i : Nat) : Bool :=
  match node[i]? with
  | some e => e.kind
  | none => false

/-- The order of two entries of the working set: the lighter first; of equal weight, a merged entry before a leaf and a later
merged entry before an earlier one, since a merged entry goes before every entry of equal weight (D8), and leaves in
ascending arena order, which is ascending symbol order (D7) (R110, R112). -/
def Precedes (w : WeightTable) (node : List Node) (a b : Nat) : Prop :=
  (nodeWeights w node).getD a 0 < (nodeWeights w node).getD b 0 ∨
  (nodeWeights w node).getD a 0 = (nodeWeights w node).getD b 0 ∧
    ((isInternal node a = true ∧ (isInternal node b = true → b < a)) ∨
     (isInternal node a = false ∧ isInternal node b = false ∧ a < b))

/-- `prefix(p, q)`: len(p) <= len(q), and p[j] = q[j] for every j < len(p) (R10). -/
def IsPrefix (p q : Bits) : Prop := p.length ≤ q.length ∧ ∀ j, j < p.length → p[j]? = q[j]?

/-- The symbols with a non-zero weight, ascending: the weighted alphabet (R103). -/
def weighted (w : WeightTable) : List Sym := allSymbols.filter fun sym => w.get sym != 0

/-! ### Invariants -/

/-- R37: what holds between any two commands. -/
structure Inv (s : State) : Prop where
  /-- NODE_COUNT = len(NODE) (R24). -/
  nodeCount : s.nodeCount.toNat = s.node.length
  /-- R37(a). -/
  noTree : s.treeValid = false → s.nodeCount = 0 ∧ s.node = [] ∧ s.root = 0
  /-- R37(b). -/
  tree : s.treeValid = true → IsTree s.node s.root
  /-- R37(c): LT is exactly the table of the tree held, each leaf's symbol with the path to it and no other symbol. -/
  table : s.tableValid = true → s.treeValid = true ∧
    ∀ sym c, s.lt.get sym = ⟨true, c⟩ ↔ IsCode s.node s.root sym c
  /-- An entry without a code is a cleared entry (R27). -/
  noCode : ∀ sym, (s.lt.get sym).valid = false → s.lt.get sym = ⟨false, []⟩
  /-- R37(d). -/
  noTable : s.tableValid = false → ∀ sym, s.lt.get sym = ⟨false, []⟩
  /-- R37(e). -/
  length : s.bseqLen.toNat = s.bseq.length ∧ s.bseq.length ≤ s.bseqCap.bits
  /-- R37(f). -/
  error : s.errCode = 0 → s.errOpc = 0 ∧ s.errArg = 0 ∧ s.errMulti = false

/-! ### Runs -/

/-- The commands `is`, run one after another at the transaction level (R58, R72). -/
def runCommands : List Instr → State → Result
  | [], s => .next s
  | i :: is, s =>
    match exec i s with
    | .next t => runCommands is t
    | .fault r => .fault r
    | .refused r => .refused r

/-- The storages and registers of `s` alone, its channels idle and empty. -/
def storageOf (s : State) : State := { s with phase := .ready, offered := none, script := [], responses := [] }

/-- The response of the command in flight, if there is one: computed, whether or not it is raised yet. -/
def inFlight (s : State) : List RspWord :=
  match s.phase with
  | .working rsp => [rsp]
  | .answering rsp => [rsp]
  | .clearing => []
  | .ready => []

/-- The RC field of a response, bits [63:56] (R77). -/
def rcField (rsp : RspWord) : BitVec 8 := rsp.extractLsb' 56 8

/-- The DATA field of a response, bits [31:0] (R77). -/
def dataField (rsp : RspWord) : Data := rsp.extractLsb' 0 32

/-- The DATA that a command's end carries, 0 when no response is in flight. -/
def dataOf : Result → Data
  | .next t => dataField ((inFlight t).headD 0)
  | .fault _ => 0
  | .refused _ => 0

/-- The function `step : State -> Command -> State x Response` of R20 and R72, on the storages alone. -/
def transact (w : CmdWord) (s : State) : State × List RspWord :=
  match acceptWord w s with
  | .next t => (storageOf t, inFlight t)
  | .fault _ => (s, [])
  | .refused _ => (s, [])

/-- That function applied once per command, in order, with the responses it gives (R72, R73). -/
def transactAll : List CmdWord → State → State × List RspWord
  | [], s => (s, [])
  | w :: ws, s => ((transactAll ws (transact w s).1).1, (transact w s).2 ++ (transactAll ws (transact w s).1).2)

/-- At most `k` commands of a host whose next command, if it has one, is `next` of the responses it has got (R235, R236): the
state reached, and the responses so far. -/
def runHost (next : List RspWord → Option Instr) : Nat → List RspWord → State → State × List RspWord
  | 0, rsps, s => (s, rsps)
  | k + 1, rsps, s =>
    match next rsps with
    | none => (s, rsps)
    | some i => runHost next k (rsps ++ (transact (encode i) s).2) (transact (encode i) s).1

/-- `k` steps of the machine. -/
def runSteps : Nat → State → Result
  | 0, s => .next s
  | k + 1, s =>
    match step s with
    | .next t => runSteps k t
    | .fault r => .fault r
    | .refused r => .refused r

/-- The command that transfers at the next edge: cmd_valid = 1 and cmd_ready = 1, outside reset (R71, R72). -/
def acceptedNext (s : State) : List CmdWord :=
  match s.script with
  | [] => []
  | e :: _ => if e.rstN && e.cmdValid && cmdReady s then [e.cmdData] else []

/-- The commands that transfer in the next `k` steps, in order. -/
def acceptedIn : Nat → State → List CmdWord
  | 0, _ => []
  | k + 1, s => acceptedNext s ++
    match step s with
    | .next t => acceptedIn k t
    | .fault _ => []
    | .refused _ => []

/-! ### Readers outside the core -/

/-- The decoder of R174, outside the core: LEFT on 0, RIGHT on 1; on reaching a leaf its symbol, and back to the root. -/
def readSymbols (node : List Node) (root : NodeIdx) : NodeIdx → Bits → List Sym
  | _, [] => []
  | i, b :: q =>
    match node[i.toNat]? with
    | some (.internal l r) =>
      match node[(if b then r else l).toNat]? with
      | some (.leaf sym) => sym :: readSymbols node root root q
      | some (.internal _ _) => readSymbols node root (if b then r else l) q
      | none => []
    | some (.leaf _) => []
    | none => []

/-- The source's text rendering, done by the host from the words read back: character i is '0' or '1' as bit (i mod 32) of
word i div 32 (R157). -/
def rendering (len : Nat) (wordAt : Nat → Data) : List Char :=
  (List.range len).map fun i => if (wordAt (i / 32)).getLsbD (i % 32) then '1' else '0'

end Sys2Proof.Safety
end

