-- ==== Sys2Proof/WellFormed.lean ====
section
/-! DEFINITION. Well-formed commands: those whose operands lie in the static range of 30_encoding.md R81. Every other
operand is in range by its width (R76). -/

namespace Sys2Proof

/-- The static range conditions of R81, on the command alone (`cap` is the parameter BSEQ_CAP_BITS). -/
def WellFormed (cap : BseqCap) : Instr → Bool
  | .readNode imm => decide (imm.toNat < Config.maxNodes)
  | .readCodeWord _ imm => decide (imm.toNat < Config.codeWords)
  | .bseqAddBit imm => decide (imm.toNat ≤ 1)
  | .bseqAppendBits n _ => decide (n.toNat ≤ 32)
  | .readBseqWord imm => decide (imm.toNat < cap.words)
  | .nop | .softReset | .readStatus | .readError | .clearError | .loadWeight _ _ | .readWeight _ | .clearWeights
  | .build | .genTable | .readCodeLen _ | .encode _ | .bseqClear | .readBseqLen => true

end Sys2Proof
end

