-- ==== Sys2Proof/Certificates/Slice0/Obligations.lean ====
section
/-! DEFINITION. The statements for the provers, each formalising rules of spec/ (OBLIGATIONS.json names them). -/

open Sys2Proof Sys2Proof.Machine Sys2Proof.Safety

/-! ### Encoding (30_encoding.md) -/

/-- No bit of an encoding is dropped: decoding the word of a well-formed command gives it back, at every capacity. -/
def Obligations.DecodeOfEncodeIsTheCommand : Prop :=
  ∀ (cap : BseqCap) (i : Instr), WellFormed cap i = true → decode cap (encode i) = .ok i

/-- Each word has one meaning: a word that decodes is the word of its command, which is well formed. -/
def Obligations.EncodeOfDecodedWordIsTheWord : Prop :=
  ∀ (cap : BseqCap) (w : CmdWord) (i : Instr), decode cap w = .ok i → encode i = w ∧ WellFormed cap i = true

/-- R80 and R81: the checks of decode in order, by opcode, format and static range; a word that passes runs the one command
whose encoding it is, and a word that fails changes only the error register. -/
def Obligations.WordsAreRejectedByTheFirstFailingCheck : Prop :=
  ∀ (w : CmdWord) (s : State),
    (¬ Assigned w → Rejected 1 w s) ∧
    (Assigned w → ¬ ReservedZero w → Rejected 2 w s) ∧
    (Assigned w → ReservedZero w → ¬ InStaticRange s.bseqCap w → Rejected 3 w s) ∧
    (Assigned w → ReservedZero w → InStaticRange s.bseqCap w → ∃ i, encode i = w ∧ opcodeOf i = w.extractLsb' 56 8 ∧ Runs w i s)

/-- Words written out from R84's examples and R75's formats, at every capacity. -/
def Obligations.WordsOfTheSpecDecodeToTheirCommands : Prop :=
  ∀ cap : BseqCap,
    decode cap 0x0000000000000000 = .ok .nop ∧
    decode cap 0x1061000000000005 = .ok (.loadWeight 0x61 5) ∧
    decode cap 0x2000000000000000 = .ok .build ∧
    decode cap 0x2100000000000006 = .ok (.readNode 6) ∧
    decode cap 0x3263000000000000 = .ok (.readCodeWord 0x63 0) ∧
    decode cap 0x4061000000000000 = .ok (.encode 0x61) ∧
    decode cap 0x5203000000000005 = .ok (.bseqAppendBits 3 5) ∧
    decode cap 0x21000000000001FF = .error .operandOutOfRange ∧
    decode cap 0x2101000000000258 = .error .reservedNonZero ∧
    decode cap 0xFF12345678ABCDEF = .error .unassignedOpcode

/-! ### The channels and the step (30_encoding.md R70 to R73, 70_reset_and_hazards.md) -/

/-- At an edge where a command transfers, and whose word decodes to `i`, the step is `exec i` on the state with the edge taken
and the offer gone; the response is then on its way, raised at this edge unless the implementation needs longer. That a step is an
edge and that the latency is the edge's `busy` are the model's choices (log 2, log 3, log 4). -/
def Obligations.StepRunsTheDecodedCommand : Prop :=
  ∀ (s : State) (e : Edge) (rest : List Edge) (i : Instr),
    s.script = e :: rest → e.rstN = true → e.cmdValid = true → s.phase = .ready →
    (s.offered = none ∨ s.offered = some e.cmdData) → decode s.bseqCap e.cmdData = .ok i →
    ∃ (t : State) (rsp : RspWord), exec i { s with script := rest, offered := none } = .next t ∧ t.phase = .working rsp ∧
      step s = .next { t with phase := if e.busy then .working rsp else .answering rsp }

/-- At such an edge a word that does not decode is answered with ILLEGAL_COMMAND and its subcause, and only the error register
records it (log 2, log 3 and log 4 again: the model's choices). -/
def Obligations.StepAnswersAnIllegalWord : Prop :=
  ∀ (s : State) (e : Edge) (rest : List Edge) (why : Illegal),
    s.script = e :: rest → e.rstN = true → e.cmdValid = true → s.phase = .ready →
    (s.offered = none ∨ s.offered = some e.cmdData) → decode s.bseqCap e.cmdData = .error why →
    step s = .next { withError 5 (e.cmdData.extractLsb' 56 8) why.subcause { s with script := rest, offered := none } with
      phase := if e.busy then .working (errResponse 5 why.subcause) else .answering (errResponse 5 why.subcause) }

/-- R73's first half: every word, legal or not, in every state, ends with exactly one response in flight. -/
def Obligations.EveryWordIsAnswered : Prop :=
  ∀ (w : CmdWord) (s : State), ∃ (t : State) (rsp : RspWord), acceptWord w s = .next t ∧ t.phase = .working rsp ∧
    inFlight t = [rsp] ∧ t.script = s.script ∧ t.responses = s.responses ∧ t.bseqCap = s.bseqCap

/-- R71: a response on offer stays, word and all, until an edge with rsp_ready = 1, where it transfers. That no
command transfers at that edge is deduced from R72 (log 4), and that the model logs the response is its own choice (log 8). -/
def Obligations.ResponseIsHeldUntilItTransfers : Prop :=
  ∀ (s : State) (e : Edge) (rest : List Edge) (rsp : RspWord),
    s.script = e :: rest → e.rstN = true → s.phase = .answering rsp → handshakeKept s e = true →
    rspOffered s = some rsp ∧ cmdReady s = false ∧
    step s = .next { s with
      script := rest
      offered := if e.cmdValid then some e.cmdData else none
      phase := if e.rspReady then .ready else .answering rsp
      responses := if e.rspReady then s.responses ++ [rsp] else s.responses }

/-- R71, R72, R214 and R242: outside reset an edge at which no command transfers changes no storage. What it does is then all
of this: with a command in flight the core holds cmd_ready = 0 and raises its response at the first edge that the implementation
does not need, and an idle core stays ready. That nothing is left to change while a command is in flight, since all of its effect
came at its transfer edge, and that the latency is the edge's `busy`, are the model's choices (log 2, log 3, log 4). -/
def Obligations.StorageChangesOnlyByAnAcceptedCommand : Prop :=
  ∀ (s : State) (e : Edge) (rest : List Edge), s.script = e :: rest → e.rstN = true →
    (∀ t, (cmdReady s = false ∨ e.cmdValid = false) → step s = .next t → storageOf t = storageOf s ∧ t.script = rest) ∧
    (∀ rsp, s.phase = .working rsp → handshakeKept s e = true → cmdReady s = false ∧ rspOffered s = none ∧
      step s = .next { s with
        script := rest
        offered := if e.cmdValid then some e.cmdData else none
        phase := if e.busy then .working rsp else .answering rsp }) ∧
    (s.phase = .ready → e.cmdValid = false → handshakeKept s e = true → cmdReady s = true ∧ rspOffered s = none ∧
      step s = .next { s with script := rest, offered := none, phase := .ready })

/-- R230: a reset edge, whatever the core was doing, drops the command in progress and the response on offer, holds
cmd_ready = 0, and leaves every storage at its reset value. That at least one edge of clearing follows, that what the host
offered is forgotten, and that the log of responses given is not, are the model's choices (log 4, log 6, log 8). -/
def Obligations.ResetEdgeDropsEverything : Prop :=
  ∀ (s : State) (e : Edge) (rest : List Edge), s.script = e :: rest → e.rstN = false →
    ∃ t, step s = .next t ∧ cmdReady t = false ∧ rspOffered t = none ∧ inFlight t = [] ∧ t.phase = .clearing ∧
      t.offered = none ∧ t.script = rest ∧ t.responses = s.responses ∧
      storageOf t = storageOf { State.reset with bseqCap := s.bseqCap }

/-- R231: the two resets leave identical state, the values of R38; the only difference is the response of SOFT_RESET. -/
def Obligations.BothResetsLeaveTheSameState : Prop :=
  ∀ (s t u : State) (e : Edge) (rest : List Edge), s.script = e :: rest → e.rstN = false →
    step s = .next t → exec .softReset s = .next u →
    storageOf t = storageOf u ∧ storageOf t = storageOf { State.reset with bseqCap := s.bseqCap } ∧
    inFlight t = [] ∧ inFlight u = [okResponse 0]

/-- R232: the reset clear keeps cmd_ready = 0 for as long as the implementation needs, and then the core is ready with its
storage as the reset left it. Its length is the `busy` of the edges, a choice of the model (log 3). -/
def Obligations.ResetClearEndsReady : Prop :=
  ∀ (s : State) (e : Edge) (rest : List Edge), s.script = e :: rest → e.rstN = true → s.phase = .clearing →
    handshakeKept s e = true →
    cmdReady s = false ∧ step s = .next { s with
      script := rest
      offered := if e.cmdValid then some e.cmdData else none
      phase := if e.busy then .clearing else .ready }

/-- R204 and R235: nothing stops the core but a host that withdraws or changes an offered command outside reset. That such a
host is met by a fault is the model's choice (log 5). -/
def Obligations.OnlyABrokenHandshakeStopsTheCore : Prop :=
  ∀ s : State,
    ((∃ f, step s = .fault f) ↔ ∃ (e : Edge) (rest : List Edge) (w : CmdWord), s.script = e :: rest ∧ e.rstN = true ∧
      s.offered = some w ∧ ¬ (e.cmdValid = true ∧ e.cmdData = w)) ∧
    ∀ r, step s ≠ .refused r

/-- R72 and R73: however the host times its offers and its readiness and however long the core takes, a run without reset is
the function State -> Command -> State x Response applied once per accepted command, in acceptance order; its responses, with
the one in flight, are that function's responses. An edge per step, the latency in `busy`, and that a command
takes effect at its transfer edge, are the model's choices (log 2, log 3, log 4). -/
def Obligations.EveryRunIsARunOfTransactions : Prop :=
  ∀ (k : Nat) (s t : State), s.phase = .ready → (∀ e ∈ s.script, e.rstN = true) → runSteps k s = .next t →
    storageOf t = (transactAll (acceptedIn k s) (storageOf s)).1 ∧
    t.responses ++ inFlight t = s.responses ++ (transactAll (acceptedIn k s) (storageOf s)).2

/-! ### Reset values and invariants (10_state.md) -/

/-- R38's table, and R233's idle core: cmd_ready = 1 and no response on offer. -/
def Obligations.ResetHoldsTheTableOfValues : Prop :=
  (∀ sym, State.reset.w.get sym = 0) ∧ State.reset.node = [] ∧ State.reset.nodeCount = 0 ∧ State.reset.root = 0 ∧
  State.reset.treeValid = false ∧ (∀ sym, State.reset.lt.get sym = ⟨false, []⟩) ∧ State.reset.tableValid = false ∧
  State.reset.bseq = [] ∧ State.reset.bseqLen = 0 ∧ State.reset.bseqTaint = false ∧
  State.reset.errCode = 0 ∧ State.reset.errOpc = 0 ∧ State.reset.errArg = 0 ∧ State.reset.errMulti = false ∧
  cmdReady State.reset = true ∧ rspOffered State.reset = none

/-- R37 holds right after reset. -/
def Obligations.ResetMeetsTheInvariants : Prop := Inv State.reset

/-- R37 is kept by every step, from every state that meets it, whatever the host sends. -/
def Obligations.EveryStepKeepsTheInvariants : Prop :=
  ∀ s t : State, Inv s → step s = .next t → Inv t

/-- R39: each piece of state is written only by the commands the table lists; no command writes the capacity. -/
def Obligations.CommandsWriteOnlyWhatTheTableLists : Prop :=
  ∀ (i : Instr) (s t : State), exec i s = .next t →
    (t.w ≠ s.w → (∃ sym imm, i = .loadWeight sym imm) ∨ i = .clearWeights ∨ i = .softReset) ∧
    (t.node ≠ s.node ∨ t.nodeCount ≠ s.nodeCount ∨ t.root ≠ s.root ∨ t.treeValid ≠ s.treeValid →
      i = .build ∨ i = .softReset) ∧
    (t.lt ≠ s.lt ∨ t.tableValid ≠ s.tableValid → i = .build ∨ i = .genTable ∨ i = .softReset) ∧
    (t.bseq ≠ s.bseq ∨ t.bseqLen ≠ s.bseqLen → (∃ sym, i = .encode sym) ∨ (∃ imm, i = .bseqAddBit imm) ∨
      (∃ n imm, i = .bseqAppendBits n imm) ∨ i = .bseqClear ∨ i = .softReset) ∧
    (t.bseqTaint ≠ s.bseqTaint → (∃ sym, i = .encode sym) ∨ (∃ imm, i = .bseqAddBit imm) ∨
      (∃ n imm, i = .bseqAppendBits n imm) ∨ i = .bseqClear ∨ i = .softReset) ∧
    (t.errCode ≠ s.errCode ∨ t.errOpc ≠ s.errOpc ∨ t.errArg ≠ s.errArg ∨ t.errMulti ≠ s.errMulti →
      (∃ rsp, inFlight t = [rsp] ∧ rcField rsp ≠ 0) ∨ i = .clearError ∨ i = .softReset) ∧
    t.bseqCap = s.bseqCap

/-- R56: a read command that succeeds changes no storage and, sent again at once, answers the same; one that fails changes only
the error register. -/
def Obligations.ReadsHaveNoSideEffects : Prop :=
  ∀ (i : Instr) (s t : State) (rsp : RspWord),
    (i = .readStatus ∨ i = .readError ∨ (∃ sym, i = .readWeight sym) ∨ (∃ imm, i = .readNode imm) ∨
      (∃ sym, i = .readCodeLen sym) ∨ (∃ sym imm, i = .readCodeWord sym imm) ∨ i = .readBseqLen ∨
      ∃ imm, i = .readBseqWord imm) →
    exec i s = .next t → t.phase = .working rsp →
    (rcField rsp = 0 → t = { s with phase := .working rsp } ∧ exec i t = .next t) ∧
    (rcField rsp ≠ 0 → t = { s with
      phase := .working rsp, errCode := t.errCode, errOpc := t.errOpc, errArg := t.errArg, errMulti := t.errMulti })

/-! ### Block control (46_control.md) -/

/-- R190. -/
def Obligations.NopDoesNothing : Prop :=
  ZFormat 0x00 .nop ∧ ∀ s : State, exec .nop s = .next (responding (okResponse 0) s)

/-- R191: every storage and register at the value of R38, and a response with RC = 0. -/
def Obligations.SoftResetClearsEveryStorage : Prop :=
  ZFormat 0x01 .softReset ∧ ∀ s : State, ∃ (w : WeightTable) (lt : LookupTable),
    (∀ sym, w.get sym = 0) ∧ (∀ sym, lt.get sym = ⟨false, []⟩) ∧
    exec .softReset s = .next (responding (okResponse 0) { s with
      w := w, node := [], nodeCount := 0, root := 0, treeValid := false, lt := lt, tableValid := false,
      bseq := [], bseqLen := 0, bseqTaint := false, errCode := 0, errOpc := 0, errArg := 0, errMulti := false })

/-- R192 and R33: the STATUS word, field by field, and no other effect. -/
def Obligations.ReadStatusReturnsTheStatusFields : Prop :=
  ZFormat 0x02 .readStatus ∧ ∀ s : State, ∃ data : Data,
    exec .readStatus s = .next (responding (okResponse data) s) ∧
    data.getLsbD 0 = s.treeValid ∧ data.getLsbD 1 = s.tableValid ∧ data.getLsbD 2 = s.bseqTaint ∧
    (data.getLsbD 3 = true ↔ s.errCode ≠ 0) ∧ data.getLsbD 4 = s.errMulti ∧ data.extractLsb' 5 3 = 0 ∧
    data.extractLsb' 8 10 = s.nodeCount ∧ data.extractLsb' 18 9 = s.root ∧ data.extractLsb' 27 5 = 0

/-- R193 and R34: the ERROR word, field by field, and no other effect. -/
def Obligations.ReadErrorReturnsTheErrorFields : Prop :=
  ZFormat 0x03 .readError ∧ ∀ s : State, ∃ data : Data,
    exec .readError s = .next (responding (okResponse data) s) ∧
    data.extractLsb' 0 8 = s.errCode ∧ data.extractLsb' 8 8 = s.errOpc ∧ data.extractLsb' 16 8 = s.errArg ∧
    data.getLsbD 24 = s.errMulti ∧ data.extractLsb' 25 7 = 0

/-- R194: the error register empty, everything else, the taint among it, as before. -/
def Obligations.ClearErrorEmptiesOnlyTheErrorRegister : Prop :=
  ZFormat 0x04 .clearError ∧ ∀ s : State, exec .clearError s = .next (responding (okResponse 0)
    { s with errCode := 0, errOpc := 0, errArg := 0, errMulti := false })

/-! ### Weight table (41_weight_table.md) -/

/-- R100: the one weight is set and nothing else changes. -/
def Obligations.LoadWeightSetsOneWeight : Prop :=
  SIFormat 0x10 .loadWeight (fun _ => True) ∧ ∀ (s : State) (sym : Sym) (imm : Data), ∃ w : WeightTable,
    exec (.loadWeight sym imm) s = .next (responding (okResponse 0) { s with w := w }) ∧
    ∀ x, w.get x = if x = sym then imm else s.w.get x

/-- R101. -/
def Obligations.ReadWeightReturnsTheWeight : Prop :=
  SFormat 0x11 .readWeight ∧ ∀ (s : State) (sym : Sym),
    exec (.readWeight sym) s = .next (responding (okResponse (s.w.get sym)) s)

/-- R102: every weight is 0 and nothing else changes. -/
def Obligations.ClearWeightsEmptiesTheTable : Prop :=
  ZFormat 0x12 .clearWeights ∧ ∀ s : State, ∃ w : WeightTable,
    exec .clearWeights s = .next (responding (okResponse 0) { s with w := w }) ∧ ∀ x, w.get x = 0

/-- R85's LOAD_TABLE leaves exactly the pairs' weights, 0 elsewhere, and the rest of the storage as it was. -/
def Obligations.LoadTableLoadsExactlyThePairs : Prop :=
  ∀ (s : State) (pairs : List (Sym × Weight)), (pairs.map Prod.fst).Nodup →
    ∃ (t : State) (w : WeightTable), runCommands (loadTable pairs) s = .next t ∧
      storageOf t = storageOf { s with w := w } ∧
      (∀ p ∈ pairs, w.get p.1 = p.2) ∧ ∀ x, x ∉ pairs.map Prod.fst → w.get x = 0

/-! ### Tree builder (42_tree_builder.md) -/

/-- BUILD's word forms, and R110 and R203 for the empty table: the old tree and table are discarded and INSUFFICIENT_NODES(0)
raised, and BSEQ and W are not touched. -/
def Obligations.BuildOfAnEmptyTableFails : Prop :=
  ZFormat 0x20 .build ∧ ∀ s : State, (∀ sym, s.w.get sym = 0) → ∃ lt : LookupTable, (∀ sym, lt.get sym = ⟨false, []⟩) ∧
    exec .build s = .next (failing 1 0x20 0 { s with
      treeValid := false, tableValid := false, node := [], nodeCount := 0, root := 0, lt := lt })

/-- R110, R113 and R115 for a table with a weighted symbol: BUILD completes with a tree whose leaves are exactly the weighted
symbols, 2n - 1 nodes for n of them, the lookup table cleared, and W and the bit accumulator not touched. -/
def Obligations.BuildMakesATreeOfTheWeightedSymbols : Prop :=
  ∀ s : State, (∃ sym, s.w.get sym ≠ 0) →
    ∃ (node : List Node) (count : BitVec 10) (root : NodeIdx) (lt : LookupTable),
      exec .build s = .next (responding (okResponse 0) { s with
        node := node, nodeCount := count, root := root, treeValid := true, tableValid := false, lt := lt }) ∧
      (∀ sym, lt.get sym = ⟨false, []⟩) ∧ IsTree node root ∧ count.toNat = node.length ∧
      (∀ sym, sym ∈ leafSymbols node ↔ s.w.get sym ≠ 0) ∧ node.length + 1 = 2 * (weighted s.w).length

/-- R110 step 1 with D7 and D9: the leaves take the first arena indices, ascending by weight and then by symbol, and every node
after them is internal. -/
def Obligations.BuildOrdersLeavesByWeightThenSymbol : Prop :=
  ∀ s t : State, (∃ sym, s.w.get sym ≠ 0) → exec .build s = .next t →
    ∃ (leaves : List Sym) (rest : List Node), t.node = leaves.map .leaf ++ rest ∧ (∀ e ∈ rest, e.kind = true) ∧
      (∀ sym, sym ∈ leaves ↔ s.w.get sym ≠ 0) ∧
      leaves.Pairwise fun a b => (s.w.get a).toNat < (s.w.get b).toNat ∨
        ((s.w.get a).toNat = (s.w.get b).toNat ∧ a.toNat < b.toNat)

/-- R110 step 2 and R112, with the tie rules D7 and D8: the children of each internal node, left then right, are the first two
entries of the working set at its merge, in the order of true weights and of the tie rules. -/
def Obligations.BuildMergesTheTwoFirstEntries : Prop :=
  ∀ (s t : State) (k : Nat) (l r : NodeIdx), exec .build s = .next t → t.node[k]? = some (.internal l r) →
    Available t.node k l.toNat ∧ Available t.node k r.toNat ∧ Precedes s.w t.node l.toNat r.toNat ∧
    ∀ j, Available t.node k j → j = l.toNat ∨ j = r.toNat ∨ Precedes s.w t.node r.toNat j

/-- R112 and R114: after step 1 and after any number of merges, every working-set weight is the true sum of the weights of the
leaves below its node, so the 40-bit addition never wraps, and the entries stand in ascending order of weight, entries of
equal weight in the order of the tie rules. -/
def Obligations.WorkingSetHoldsTrueSumsInOrder : Prop :=
  ∀ (w : WeightTable) (k : Nat) (f : Forest), f = mergeLoop k (initialForest (sortedLeaves w)) →
    (∀ e ∈ f.ws, (nodeWeights w f.node)[e.nd.toNat]? = some e.wt.toNat) ∧
    f.ws.Pairwise (fun a b => a.wt.toNat ≤ b.wt.toNat ∧ Precedes w f.node a.nd.toNat b.nd.toNat)

/-- R116: BUILD's result, and the codes GEN_TABLE then gives, are a function of W alone. -/
def Obligations.EqualWeightsGiveEqualTreesAndCodes : Prop :=
  ∀ s t s' t' : State, s.w = s'.w → runCommands [.build, .genTable] s = .next t →
    runCommands [.build, .genTable] s' = .next t' →
    t.node = t'.node ∧ t.nodeCount = t'.nodeCount ∧ t.root = t'.root ∧ t.treeValid = t'.treeValid ∧ t.lt = t'.lt

/-- R111: READ_NODE's word forms, the view of a leaf and of an internal node, and SEQUENCE_ERROR(0) at or above NODE_COUNT. -/
def Obligations.ReadNodeReturnsTheNode : Prop :=
  IFormat 0x21 .readNode (fun _ imm => imm.toNat ≤ 510) ∧
  ∀ (s : State) (imm : Data),
    (s.nodeCount.toNat ≤ imm.toNat → exec (.readNode imm) s = .next (failing 6 0x21 0 s)) ∧
    (∀ sym, imm.toNat < s.nodeCount.toNat → s.node[imm.toNat]? = some (.leaf sym) → ∃ data : Data,
      exec (.readNode imm) s = .next (responding (okResponse data) s) ∧
      data.extractLsb' 8 24 = 0 ∧ data.extractLsb' 0 8 = sym) ∧
    (∀ l r, imm.toNat < s.nodeCount.toNat → s.node[imm.toNat]? = some (.internal l r) → ∃ data : Data,
      exec (.readNode imm) s = .next (responding (okResponse data) s) ∧
      data.getLsbD 31 = true ∧ data.extractLsb' 18 13 = 0 ∧ data.extractLsb' 9 9 = r ∧ data.extractLsb' 0 9 = l)

/-! ### Code-table generator (43_code_table.md) -/

/-- R130: without a tree SEQUENCE_ERROR(0) and nothing else; with one, each symbol's entry is its root-to-leaf path, a symbol
with no leaf has a cleared entry, and only LT and TABLE_VALID change. -/
def Obligations.GenTableRecordsEveryPath : Prop :=
  ZFormat 0x30 .genTable ∧
  (∀ s : State, s.treeValid = false → exec .genTable s = .next (failing 6 0x30 0 s)) ∧
  ∀ s : State, Inv s → s.treeValid = true → ∃ lt : LookupTable,
    exec .genTable s = .next (responding (okResponse 0) { s with lt := lt, tableValid := true }) ∧
    (∀ sym c, lt.get sym = ⟨true, c⟩ ↔ IsCode s.node s.root sym c) ∧
    ∀ sym, (¬ ∃ c, IsCode s.node s.root sym c) → lt.get sym = ⟨false, []⟩

/-- R131: a code is at most 255 bits long. -/
def Obligations.CodesAreAtMost255Bits : Prop :=
  ∀ (s : State) (sym : Sym), Inv s → (s.lt.get sym).code.length ≤ 255

/-- R132: READ_CODE_LEN's word forms and its view, VALID in bit 8 and LEN below it. -/
def Obligations.ReadCodeLenReturnsValidAndLength : Prop :=
  SFormat 0x31 .readCodeLen ∧ ∀ (s : State) (sym : Sym), Inv s → ∃ data : Data,
    exec (.readCodeLen sym) s = .next (responding (okResponse data) s) ∧
    data.getLsbD 8 = (s.lt.get sym).valid ∧ (data.extractLsb' 0 8).toNat = (s.lt.get sym).code.length ∧
    data.extractLsb' 9 23 = 0

/-- R133 with R53: READ_CODE_WORD's word forms, and bit j of its DATA is CODE[32k + j], or 0 past the code. -/
def Obligations.ReadCodeWordReturnsTheCodeBits : Prop :=
  SIFormat 0x32 .readCodeWord (fun imm => imm.toNat ≤ 7) ∧ ∀ (s : State) (sym : Sym) (imm : Data), ∃ data : Data,
    exec (.readCodeWord sym imm) s = .next (responding (okResponse data) s) ∧
    ∀ j, j < 32 → data.getLsbD j = (s.lt.get sym).code.getD (32 * imm.toNat + j) false

/-- R134: no code in a valid table is a prefix of another symbol's code. -/
def Obligations.CodesArePrefixFree : Prop :=
  ∀ (s : State) (x y : Sym), Inv s → s.tableValid = true → x ≠ y →
    (s.lt.get x).valid = true → (s.lt.get y).valid = true →
    ¬ IsPrefix (s.lt.get x).code (s.lt.get y).code ∧ ¬ IsPrefix (s.lt.get y).code (s.lt.get x).code

/-- R135: when one symbol alone is weighted, its code is the empty one and no other symbol has a code. -/
def Obligations.TheSingleSymbolGetsTheEmptyCode : Prop :=
  ∀ (s : State) (x : Sym), s.w.get x ≠ 0 → (∀ y, y ≠ x → s.w.get y = 0) →
    ∃ t, runCommands [.build, .genTable] s = .next t ∧ t.lt.get x = ⟨true, []⟩ ∧
      ∀ y, y ≠ x → (t.lt.get y).valid = false

/-- R136 and R238: whatever commands other than BUILD and SOFT_RESET follow a BUILD, when the table is valid the symbols with a
code are exactly those that were weighted at that BUILD. -/
def Obligations.CodesAreExactlyForTheWeightedSymbols : Prop :=
  ∀ (s t : State) (is : List Instr), (∀ i ∈ is, i ≠ .build ∧ i ≠ .softReset) →
    runCommands (.build :: is) s = .next t → t.tableValid = true →
    ∀ sym, (t.lt.get sym).valid = true ↔ s.w.get sym ≠ 0

/-- R137: of two symbols with a code, the one of strictly higher weight at BUILD has no longer code. -/
def Obligations.HeavierSymbolsHaveNoLongerCodes : Prop :=
  ∀ (s t : State) (is : List Instr), (∀ i ∈ is, i ≠ .build ∧ i ≠ .softReset) →
    runCommands (.build :: is) s = .next t →
    ∀ x y, (s.w.get y).toNat < (s.w.get x).toNat → (t.lt.get x).valid = true → (t.lt.get y).valid = true →
      (t.lt.get x).code.length ≤ (t.lt.get y).code.length

/-! ### Bit accumulator (44_bit_sequence.md) -/

/-- R150: all of a bit string of at most 255 bits is appended or none of it, the test being exact; the empty one always
fits. -/
def Obligations.AppendIsAllOrNothing : Prop :=
  ∀ (s : State) (opc : Opcode) (arg : BitVec 8) (c : Bits), Inv s → c.length ≤ 255 →
    (s.bseq.length + c.length ≤ s.bseqCap.bits → ∃ len : BitVec 32, len.toNat = s.bseq.length + c.length ∧
      appendCommand opc arg c s = .next (responding (okResponse 0) { s with bseq := s.bseq ++ c, bseqLen := len })) ∧
    (s.bseqCap.bits < s.bseq.length + c.length →
      appendCommand opc arg c s = .next (failing 4 opc arg { s with bseqTaint := true })) ∧
    (c = [] → appendCommand opc arg c s = .next (responding (okResponse 0) s))

/-- R151: an empty sequence with no taint, and nothing else changes. -/
def Obligations.BseqClearStartsAnEmptySequence : Prop :=
  ZFormat 0x50 .bseqClear ∧ ∀ s : State, exec .bseqClear s = .next (responding (okResponse 0)
    { s with bseq := [], bseqLen := 0, bseqTaint := false })

/-- R152: BSEQ_ADD_BIT's word forms, the bit appended when there is room, and CAPACITY_EXCEEDED(0) when there is none. -/
def Obligations.BseqAddBitAppendsTheBit : Prop :=
  IFormat 0x51 .bseqAddBit (fun _ imm => imm.toNat ≤ 1) ∧ ∀ (s : State) (imm : Data),
    (s.bseqLen.toNat < s.bseqCap.bits → exec (.bseqAddBit imm) s = .next (responding (okResponse 0)
      { s with bseq := s.bseq ++ [imm.getLsbD 0], bseqLen := s.bseqLen + 1 })) ∧
    (s.bseqCap.bits ≤ s.bseqLen.toNat → exec (.bseqAddBit imm) s = .next (failing 4 0x51 0 { s with bseqTaint := true }))

/-- R153: BSEQ_APPEND_BITS's word forms; IMM[0] to IMM[N-1] appended in that order when they fit, whatever IMM[31:N] holds; and
CAPACITY_EXCEEDED(0) when they do not. -/
def Obligations.BseqAppendBitsAppendsTheLowBits : Prop :=
  (∀ (s : State) (w : CmdWord) (n : BitVec 8) (imm : Data),
    (n.toNat ≤ 32 → Runs (0x52#8 ++ n ++ 0#16 ++ imm) (.bseqAppendBits n imm) s) ∧
    (w.extractLsb' 56 8 = 0x52 → w.extractLsb' 32 16 ≠ 0 → Rejected 2 w s) ∧
    (32 < n.toNat → Rejected 3 (0x52#8 ++ n ++ 0#16 ++ imm) s)) ∧
  ∀ (s : State) (n : BitVec 8) (imm : Data),
    (s.bseqLen.toNat + n.toNat ≤ s.bseqCap.bits → ∃ (q : Bits) (len : BitVec 32),
      exec (.bseqAppendBits n imm) s = .next (responding (okResponse 0) { s with bseq := s.bseq ++ q, bseqLen := len }) ∧
      q.length = n.toNat ∧ (∀ j, j < n.toNat → q[j]? = some (imm.getLsbD j)) ∧ len.toNat = s.bseqLen.toNat + n.toNat) ∧
    (s.bseqCap.bits < s.bseqLen.toNat + n.toNat →
      exec (.bseqAppendBits n imm) s = .next (failing 4 0x52 0 { s with bseqTaint := true }))

/-- R154. -/
def Obligations.ReadBseqLenReturnsTheCount : Prop :=
  ZFormat 0x53 .readBseqLen ∧ ∀ s : State, exec .readBseqLen s = .next (responding (okResponse s.bseqLen) s)

/-- R155 with R53: READ_BSEQ_WORD's word forms, and bit j of its DATA is BSEQ[32k + j], or 0 past the sequence. -/
def Obligations.ReadBseqWordReturnsTheBits : Prop :=
  IFormat 0x54 .readBseqWord (fun cap imm => imm.toNat ≤ cap.bits / 32 - 1) ∧ ∀ (s : State) (imm : Data), ∃ data : Data,
    exec (.readBseqWord imm) s = .next (responding (okResponse data) s) ∧
    ∀ j, j < 32 → data.getLsbD j = s.bseq.getD (32 * imm.toNat + j) false

/-- R156: however bits are grouped into BSEQ_APPEND_BITS commands, when none fails they stand after the old sequence in order;
and one such command leaves the state that BSEQ_ADD_BIT commands of its bits leave. -/
def Obligations.AppendsAreAssociative : Prop :=
  (∀ (s t : State) (parts : List (BitVec 8 × Data)), Inv s → s.bseqTaint = false →
    runCommands (parts.map fun p => .bseqAppendBits p.1 p.2) s = .next t → t.bseqTaint = false →
    t.bseq = s.bseq ++ (parts.map fun p => (List.range p.1.toNat).map p.2.getLsbD).flatten) ∧
  ∀ (s t u : State) (n : BitVec 8) (imm : Data), Inv s → s.bseqTaint = false → n.toNat ≤ 32 →
    runCommands [.bseqAppendBits n imm] s = .next t → t.bseqTaint = false →
    runCommands ((List.range n.toNat).map fun j => .bseqAddBit (if imm.getLsbD j then 1 else 0)) s = .next u →
    storageOf t = storageOf u

/-- R85's BSEQ_APPEND_STR: when none of its commands fails, the string stands after the old sequence. -/
def Obligations.AppendStrAppendsTheString : Prop :=
  ∀ (s t : State) (q : Bits), Inv s → s.bseqTaint = false → runCommands (bseqAppendStr q) s = .next t →
    t.bseqTaint = false → t.bseq = s.bseq ++ q ∧ t.bseqLen.toNat = s.bseq.length + q.length

/-- R157: the rendering made from the words read back is the sequence, bit by bit. -/
def Obligations.RenderingSpellsTheSequence : Prop :=
  ∀ s : State, Inv s →
    rendering s.bseqLen.toNat (fun k => dataOf (exec (.readBseqWord (BitVec.ofNat 32 k)) s)) =
      s.bseq.map fun b => if b then '1' else '0'

/-! ### Encoder (45_encoder.md) -/

/-- R170 and R205: ENCODE's word forms; the symbol's code appended when it fits; SYMBOL_NOT_FOUND(SYM) without a code, on a full
accumulator too; CAPACITY_EXCEEDED(SYM) when it does not fit; and in each case no other effect. -/
def Obligations.EncodeAppendsTheCode : Prop :=
  SFormat 0x40 .encode ∧ ∀ (s : State) (sym : Sym), Inv s →
    ((s.lt.get sym).valid = false → exec (.encode sym) s = .next (failing 2 0x40 sym { s with bseqTaint := true })) ∧
    (∀ c, s.lt.get sym = ⟨true, c⟩ → s.bseq.length + c.length ≤ s.bseqCap.bits → ∃ len : BitVec 32,
      len.toNat = s.bseq.length + c.length ∧
      exec (.encode sym) s = .next (responding (okResponse 0) { s with bseq := s.bseq ++ c, bseqLen := len })) ∧
    (∀ c, s.lt.get sym = ⟨true, c⟩ → s.bseqCap.bits < s.bseq.length + c.length →
      exec (.encode sym) s = .next (failing 4 0x40 sym { s with bseqTaint := true }))

/-- R171 and R172: after BSEQ_CLEAR and ENCODE of each symbol of a text, none failing, BSEQ is the concatenation of the codes in
order, BSEQ_LEN the sum of their lengths, and nothing else has changed. -/
def Obligations.EncodedTextIsTheConcatenationOfCodes : Prop :=
  ∀ (s : State) (text : List Sym), Inv s → (∀ sym ∈ text, (s.lt.get sym).valid = true) →
    (text.map fun sym => (s.lt.get sym).code.length).sum ≤ s.bseqCap.bits →
    ∃ (t : State) (len : BitVec 32), runCommands (.bseqClear :: encodeStr text) s = .next t ∧
      len.toNat = (text.map fun sym => (s.lt.get sym).code.length).sum ∧
      storageOf t = storageOf { s with
        bseq := (text.map fun sym => (s.lt.get sym).code).flatten, bseqLen := len, bseqTaint := false }

/-- R171's other half: with a symbol that has no code in the text, and room for the rest, BSEQ holds the codes of the symbols
that have one, it is tainted, and an error register that was empty names the first missing symbol. -/
def Obligations.AMissingSymbolTaintsTheSequence : Prop :=
  ∀ (s t : State) (before after : List Sym) (x : Sym), Inv s → s.errCode = 0 →
    (∀ sym ∈ before, (s.lt.get sym).valid = true) → (s.lt.get x).valid = false →
    ((before ++ x :: after).map fun sym => (s.lt.get sym).code.length).sum ≤ s.bseqCap.bits →
    runCommands (.bseqClear :: encodeStr (before ++ x :: after)) s = .next t →
    t.bseqTaint = true ∧ t.errCode = 2 ∧ t.errOpc = 0x40 ∧ t.errArg = x ∧
    t.bseq = (((before ++ x :: after).filter fun sym => (s.lt.get sym).valid).map fun sym => (s.lt.get sym).code).flatten

/-- R174: a text encoded with the code of its own counts, none of its commands failing, is read back exactly by the decoder
outside the core when two distinct symbols occur in it, and as no bits at all when one does. -/
def Obligations.DecodingTheEncodedTextGivesItBack : Prop :=
  ∀ (s t : State) (text : List Sym), (∀ sym, (s.w.get sym).toNat = text.count sym) →
    runCommands ([.build, .genTable, .bseqClear] ++ encodeStr text) s = .next t → t.bseqTaint = false →
    ((∃ x ∈ text, ∃ y ∈ text, x ≠ y) → readSymbols t.node t.root t.root t.bseq = text) ∧
    ((∃ x ∈ text, ∀ y ∈ text, y = x) → t.bseq = [])

/-- R239: between a BUILD and the next GEN_TABLE, whatever other commands come, every ENCODE raises SYMBOL_NOT_FOUND and taints
the sequence. -/
def Obligations.EncodeFailsBetweenBuildAndGenTable : Prop :=
  ∀ (s t : State) (is : List Instr) (sym : Sym), (∀ i ∈ is, i ≠ .genTable) → runCommands (.build :: is) s = .next t →
    exec (.encode sym) t = .next (failing 2 0x40 sym { t with bseqTaint := true })

/-! ### Errors (60_exceptions.md) -/

/-- R200, R201 and R77: the result code of every response, the commands that can give it, and the argument in its DATA; bits
[55:32] are 0. -/
def Obligations.ResultCodesAndArgumentsAreTheTable : Prop :=
  ∀ (w : CmdWord) (s t : State) (rsp : RspWord), acceptWord w s = .next t → t.phase = .working rsp →
    rsp.extractLsb' 32 24 = 0 ∧
    (rcField rsp = 0 ∨ (dataField rsp).extractLsb' 8 24 = 0) ∧
    (rcField rsp = 0 ∨
     (rcField rsp = 1 ∧ w.extractLsb' 56 8 = 0x20 ∧ dataField rsp = 0) ∨
     (rcField rsp = 2 ∧ w.extractLsb' 56 8 = 0x40 ∧ (dataField rsp).setWidth 8 = w.extractLsb' 48 8) ∨
     (rcField rsp = 4 ∧ w.extractLsb' 56 8 = 0x40 ∧ (dataField rsp).setWidth 8 = w.extractLsb' 48 8) ∨
     (rcField rsp = 4 ∧ (w.extractLsb' 56 8 = 0x51 ∨ w.extractLsb' 56 8 = 0x52) ∧ dataField rsp = 0) ∨
     (rcField rsp = 5 ∧ (dataField rsp = 1 ∨ dataField rsp = 2 ∨ dataField rsp = 3)) ∨
     (rcField rsp = 6 ∧ (w.extractLsb' 56 8 = 0x30 ∨ w.extractLsb' 56 8 = 0x21) ∧ dataField rsp = 0))

/-- R202 and R203: what a failing command leaves. The first error is kept with the command's opcode byte and its argument, a
further one only sets ERR_MULTI; besides, an illegal command and a sequence error change nothing, a missing symbol and a
passed capacity only taint the sequence, and a failed BUILD leaves no tree and no table. -/
def Obligations.AFailedCommandLeavesOnlyItsError : Prop :=
  ∀ (w : CmdWord) (s t : State) (rsp : RspWord), acceptWord w s = .next t → t.phase = .working rsp → rcField rsp ≠ 0 →
    ((rcField rsp = 5 ∨ rcField rsp = 6) →
      t = failing (rcField rsp) (w.extractLsb' 56 8) ((dataField rsp).setWidth 8) s) ∧
    ((rcField rsp = 2 ∨ rcField rsp = 4) →
      t = failing (rcField rsp) (w.extractLsb' 56 8) ((dataField rsp).setWidth 8) { s with bseqTaint := true }) ∧
    (rcField rsp = 1 → ∃ lt : LookupTable, (∀ sym, lt.get sym = ⟨false, []⟩) ∧
      t = failing 1 (w.extractLsb' 56 8) 0 { s with
        treeValid := false, tableValid := false, node := [], nodeCount := 0, root := 0, lt := lt })

/-- R31 and R240: only BSEQ_CLEAR and reset clear the taint. -/
def Obligations.TaintStaysUntilCleared : Prop :=
  ∀ (i : Instr) (s t : State), s.bseqTaint = true → i ≠ .bseqClear → i ≠ .softReset → exec i s = .next t →
    t.bseqTaint = true
end

