-- ==== Sys2Proof/Laws/Boot.lean ====
section
/-! SUPPORT. A host that sends commands by the responses it has got, and the boot sequence of 70_reset_and_hazards.md R236. -/

namespace Sys2Proof.Laws

open Sys2Proof.Machine Sys2Proof.Safety

/-- One command of a host that has one to send. -/
theorem runHost_send {next : List RspWord → Option Instr} {k : Nat} {rsps : List RspWord} {s : State} (i : Instr) (t : State)
    (r : List RspWord) (hn : next rsps = some i) (hi : transact (encode i) s = (t, r)) :
    runHost next (k + 1) rsps s = runHost next k (rsps ++ r) t := by
  simp [runHost, hn, hi]

/-- A host that has stopped. -/
theorem runHost_stop {next : List RspWord → Option Instr} {rsps : List RspWord} (k : Nat) (s : State)
    (hn : next rsps = none) : runHost next k rsps s = (s, rsps) := by
  cases k with
  | zero => rfl
  | succ k => simp [runHost, hn]

/-- Step 3 of R236: on INSUFFICIENT_NODES nothing follows BUILD. -/
@[simp] theorem bootSequence_insufficient (p : BootPlan) (len : Data) : bootSequence p 1 len = bootToBuild p := by
  simp [bootSequence, ErrKind.code]

/-- Otherwise steps 4 to 8 follow. -/
theorem bootSequence_built (p : BootPlan) (len : Data) :
    bootSequence p 0 len = bootToBuild p ++ bootToLength p ++ if p.wantBits then readBack len.toNat else [] := by
  simp [bootSequence, ErrKind.code]

/-- The boot of the empty text, from any state: SOFT_RESET, CLEAR_WEIGHTS and BUILD are sent and nothing after them, so that the
one error recorded is INSUFFICIENT_NODES of BUILD, and ERR_MULTI is 0. -/
theorem boot_of_no_text_stops (wantBits : Bool) (k : Nat) (s : State) :
    runHost (bootNext ⟨.software, [], [], wantBits⟩) (k + 3) [] s =
      (storageOf { State.reset with bseqCap := s.bseqCap, errCode := 1, errOpc := 0x20 },
        [okResponse 0, okResponse 0, errResponse 1 0]) := by
  rw [runHost_send .softReset (storageOf { State.reset with bseqCap := s.bseqCap }) [okResponse 0] rfl rfl,
    runHost_send .clearWeights (storageOf { State.reset with bseqCap := s.bseqCap }) [okResponse 0] rfl rfl,
    runHost_send .build (storageOf { State.reset with bseqCap := s.bseqCap, errCode := 1, errOpc := 0x20 })
      [errResponse 1 0] rfl rfl]
  exact runHost_stop _ _ (by cases wantBits <;> decide)

end Sys2Proof.Laws
end

