-- ==== Sys2Proof/Laws/State.lean ====
section
/-! SUPPORT. One lemma per field of State for each named update, so that no later proof unfolds a record update. -/

namespace Sys2Proof.Laws

open Sys2Proof.Machine Sys2Proof.Safety

/-! ### discardTree -/

@[simp] theorem discardTree_w (s : State) :
    (discardTree s).w = s.w := rfl
@[simp] theorem discardTree_node (s : State) :
    (discardTree s).node = [] := rfl
@[simp] theorem discardTree_nodeCount (s : State) :
    (discardTree s).nodeCount = 0 := rfl
@[simp] theorem discardTree_root (s : State) :
    (discardTree s).root = 0 := rfl
@[simp] theorem discardTree_treeValid (s : State) :
    (discardTree s).treeValid = false := rfl
@[simp] theorem discardTree_lt (s : State) :
    (discardTree s).lt = LookupTable.cleared := rfl
@[simp] theorem discardTree_tableValid (s : State) :
    (discardTree s).tableValid = false := rfl
@[simp] theorem discardTree_bseq (s : State) :
    (discardTree s).bseq = s.bseq := rfl
@[simp] theorem discardTree_bseqLen (s : State) :
    (discardTree s).bseqLen = s.bseqLen := rfl
@[simp] theorem discardTree_bseqTaint (s : State) :
    (discardTree s).bseqTaint = s.bseqTaint := rfl
@[simp] theorem discardTree_errCode (s : State) :
    (discardTree s).errCode = s.errCode := rfl
@[simp] theorem discardTree_errOpc (s : State) :
    (discardTree s).errOpc = s.errOpc := rfl
@[simp] theorem discardTree_errArg (s : State) :
    (discardTree s).errArg = s.errArg := rfl
@[simp] theorem discardTree_errMulti (s : State) :
    (discardTree s).errMulti = s.errMulti := rfl
@[simp] theorem discardTree_bseqCap (s : State) :
    (discardTree s).bseqCap = s.bseqCap := rfl
@[simp] theorem discardTree_phase (s : State) :
    (discardTree s).phase = s.phase := rfl
@[simp] theorem discardTree_offered (s : State) :
    (discardTree s).offered = s.offered := rfl
@[simp] theorem discardTree_script (s : State) :
    (discardTree s).script = s.script := rfl
@[simp] theorem discardTree_responses (s : State) :
    (discardTree s).responses = s.responses := rfl

/-! ### resetStorage -/

@[simp] theorem resetStorage_w (s : State) :
    (resetStorage s).w = WeightTable.zero := rfl
@[simp] theorem resetStorage_node (s : State) :
    (resetStorage s).node = [] := rfl
@[simp] theorem resetStorage_nodeCount (s : State) :
    (resetStorage s).nodeCount = 0 := rfl
@[simp] theorem resetStorage_root (s : State) :
    (resetStorage s).root = 0 := rfl
@[simp] theorem resetStorage_treeValid (s : State) :
    (resetStorage s).treeValid = false := rfl
@[simp] theorem resetStorage_lt (s : State) :
    (resetStorage s).lt = LookupTable.cleared := rfl
@[simp] theorem resetStorage_tableValid (s : State) :
    (resetStorage s).tableValid = false := rfl
@[simp] theorem resetStorage_bseq (s : State) :
    (resetStorage s).bseq = [] := rfl
@[simp] theorem resetStorage_bseqLen (s : State) :
    (resetStorage s).bseqLen = 0 := rfl
@[simp] theorem resetStorage_bseqTaint (s : State) :
    (resetStorage s).bseqTaint = false := rfl
@[simp] theorem resetStorage_errCode (s : State) :
    (resetStorage s).errCode = 0 := rfl
@[simp] theorem resetStorage_errOpc (s : State) :
    (resetStorage s).errOpc = 0 := rfl
@[simp] theorem resetStorage_errArg (s : State) :
    (resetStorage s).errArg = 0 := rfl
@[simp] theorem resetStorage_errMulti (s : State) :
    (resetStorage s).errMulti = false := rfl
@[simp] theorem resetStorage_bseqCap (s : State) :
    (resetStorage s).bseqCap = s.bseqCap := rfl
@[simp] theorem resetStorage_phase (s : State) :
    (resetStorage s).phase = s.phase := rfl
@[simp] theorem resetStorage_offered (s : State) :
    (resetStorage s).offered = s.offered := rfl
@[simp] theorem resetStorage_script (s : State) :
    (resetStorage s).script = s.script := rfl
@[simp] theorem resetStorage_responses (s : State) :
    (resetStorage s).responses = s.responses := rfl

/-! ### responding -/

@[simp] theorem responding_w (rsp : RspWord) (s : State) :
    (responding rsp s).w = s.w := rfl
@[simp] theorem responding_node (rsp : RspWord) (s : State) :
    (responding rsp s).node = s.node := rfl
@[simp] theorem responding_nodeCount (rsp : RspWord) (s : State) :
    (responding rsp s).nodeCount = s.nodeCount := rfl
@[simp] theorem responding_root (rsp : RspWord) (s : State) :
    (responding rsp s).root = s.root := rfl
@[simp] theorem responding_treeValid (rsp : RspWord) (s : State) :
    (responding rsp s).treeValid = s.treeValid := rfl
@[simp] theorem responding_lt (rsp : RspWord) (s : State) :
    (responding rsp s).lt = s.lt := rfl
@[simp] theorem responding_tableValid (rsp : RspWord) (s : State) :
    (responding rsp s).tableValid = s.tableValid := rfl
@[simp] theorem responding_bseq (rsp : RspWord) (s : State) :
    (responding rsp s).bseq = s.bseq := rfl
@[simp] theorem responding_bseqLen (rsp : RspWord) (s : State) :
    (responding rsp s).bseqLen = s.bseqLen := rfl
@[simp] theorem responding_bseqTaint (rsp : RspWord) (s : State) :
    (responding rsp s).bseqTaint = s.bseqTaint := rfl
@[simp] theorem responding_errCode (rsp : RspWord) (s : State) :
    (responding rsp s).errCode = s.errCode := rfl
@[simp] theorem responding_errOpc (rsp : RspWord) (s : State) :
    (responding rsp s).errOpc = s.errOpc := rfl
@[simp] theorem responding_errArg (rsp : RspWord) (s : State) :
    (responding rsp s).errArg = s.errArg := rfl
@[simp] theorem responding_errMulti (rsp : RspWord) (s : State) :
    (responding rsp s).errMulti = s.errMulti := rfl
@[simp] theorem responding_bseqCap (rsp : RspWord) (s : State) :
    (responding rsp s).bseqCap = s.bseqCap := rfl
@[simp] theorem responding_phase (rsp : RspWord) (s : State) :
    (responding rsp s).phase = .working rsp := rfl
@[simp] theorem responding_offered (rsp : RspWord) (s : State) :
    (responding rsp s).offered = s.offered := rfl
@[simp] theorem responding_script (rsp : RspWord) (s : State) :
    (responding rsp s).script = s.script := rfl
@[simp] theorem responding_responses (rsp : RspWord) (s : State) :
    (responding rsp s).responses = s.responses := rfl

/-! ### withError, failing and recordError (R202) -/

@[simp] theorem withError_w (code opc arg : BitVec 8) (s : State) :
    (withError code opc arg s).w = s.w := rfl
@[simp] theorem withError_node (code opc arg : BitVec 8) (s : State) :
    (withError code opc arg s).node = s.node := rfl
@[simp] theorem withError_nodeCount (code opc arg : BitVec 8) (s : State) :
    (withError code opc arg s).nodeCount = s.nodeCount := rfl
@[simp] theorem withError_root (code opc arg : BitVec 8) (s : State) :
    (withError code opc arg s).root = s.root := rfl
@[simp] theorem withError_treeValid (code opc arg : BitVec 8) (s : State) :
    (withError code opc arg s).treeValid = s.treeValid := rfl
@[simp] theorem withError_lt (code opc arg : BitVec 8) (s : State) :
    (withError code opc arg s).lt = s.lt := rfl
@[simp] theorem withError_tableValid (code opc arg : BitVec 8) (s : State) :
    (withError code opc arg s).tableValid = s.tableValid := rfl
@[simp] theorem withError_bseq (code opc arg : BitVec 8) (s : State) :
    (withError code opc arg s).bseq = s.bseq := rfl
@[simp] theorem withError_bseqLen (code opc arg : BitVec 8) (s : State) :
    (withError code opc arg s).bseqLen = s.bseqLen := rfl
@[simp] theorem withError_bseqTaint (code opc arg : BitVec 8) (s : State) :
    (withError code opc arg s).bseqTaint = s.bseqTaint := rfl
@[simp] theorem withError_errCode (code opc arg : BitVec 8) (s : State) :
    (withError code opc arg s).errCode = if s.errCode = 0 then code else s.errCode := rfl
@[simp] theorem withError_errOpc (code opc arg : BitVec 8) (s : State) :
    (withError code opc arg s).errOpc = if s.errCode = 0 then opc else s.errOpc := rfl
@[simp] theorem withError_errArg (code opc arg : BitVec 8) (s : State) :
    (withError code opc arg s).errArg = if s.errCode = 0 then arg else s.errArg := rfl
@[simp] theorem withError_errMulti (code opc arg : BitVec 8) (s : State) :
    (withError code opc arg s).errMulti = if s.errCode = 0 then s.errMulti else true := rfl
@[simp] theorem withError_bseqCap (code opc arg : BitVec 8) (s : State) :
    (withError code opc arg s).bseqCap = s.bseqCap := rfl
@[simp] theorem withError_phase (code opc arg : BitVec 8) (s : State) :
    (withError code opc arg s).phase = s.phase := rfl
@[simp] theorem withError_offered (code opc arg : BitVec 8) (s : State) :
    (withError code opc arg s).offered = s.offered := rfl
@[simp] theorem withError_script (code opc arg : BitVec 8) (s : State) :
    (withError code opc arg s).script = s.script := rfl
@[simp] theorem withError_responses (code opc arg : BitVec 8) (s : State) :
    (withError code opc arg s).responses = s.responses := rfl

@[simp] theorem failing_w (code opc arg : BitVec 8) (s : State) :
    (failing code opc arg s).w = s.w := rfl
@[simp] theorem failing_node (code opc arg : BitVec 8) (s : State) :
    (failing code opc arg s).node = s.node := rfl
@[simp] theorem failing_nodeCount (code opc arg : BitVec 8) (s : State) :
    (failing code opc arg s).nodeCount = s.nodeCount := rfl
@[simp] theorem failing_root (code opc arg : BitVec 8) (s : State) :
    (failing code opc arg s).root = s.root := rfl
@[simp] theorem failing_treeValid (code opc arg : BitVec 8) (s : State) :
    (failing code opc arg s).treeValid = s.treeValid := rfl
@[simp] theorem failing_lt (code opc arg : BitVec 8) (s : State) :
    (failing code opc arg s).lt = s.lt := rfl
@[simp] theorem failing_tableValid (code opc arg : BitVec 8) (s : State) :
    (failing code opc arg s).tableValid = s.tableValid := rfl
@[simp] theorem failing_bseq (code opc arg : BitVec 8) (s : State) :
    (failing code opc arg s).bseq = s.bseq := rfl
@[simp] theorem failing_bseqLen (code opc arg : BitVec 8) (s : State) :
    (failing code opc arg s).bseqLen = s.bseqLen := rfl
@[simp] theorem failing_bseqTaint (code opc arg : BitVec 8) (s : State) :
    (failing code opc arg s).bseqTaint = s.bseqTaint := rfl
@[simp] theorem failing_errCode (code opc arg : BitVec 8) (s : State) :
    (failing code opc arg s).errCode = if s.errCode = 0 then code else s.errCode := rfl
@[simp] theorem failing_errOpc (code opc arg : BitVec 8) (s : State) :
    (failing code opc arg s).errOpc = if s.errCode = 0 then opc else s.errOpc := rfl
@[simp] theorem failing_errArg (code opc arg : BitVec 8) (s : State) :
    (failing code opc arg s).errArg = if s.errCode = 0 then arg else s.errArg := rfl
@[simp] theorem failing_errMulti (code opc arg : BitVec 8) (s : State) :
    (failing code opc arg s).errMulti = if s.errCode = 0 then s.errMulti else true := rfl
@[simp] theorem failing_bseqCap (code opc arg : BitVec 8) (s : State) :
    (failing code opc arg s).bseqCap = s.bseqCap := rfl
@[simp] theorem failing_phase (code opc arg : BitVec 8) (s : State) :
    (failing code opc arg s).phase = .working (errResponse code arg) := rfl
@[simp] theorem failing_offered (code opc arg : BitVec 8) (s : State) :
    (failing code opc arg s).offered = s.offered := rfl
@[simp] theorem failing_script (code opc arg : BitVec 8) (s : State) :
    (failing code opc arg s).script = s.script := rfl
@[simp] theorem failing_responses (code opc arg : BitVec 8) (s : State) :
    (failing code opc arg s).responses = s.responses := rfl

/-- The machine's error recording is the rule written out field by field (R202). -/
theorem recordError_eq_withError (code opc arg : BitVec 8) (s : State) :
    recordError code opc arg s = withError code opc arg s := by
  unfold recordError withError
  split <;> rfl

/-! ### storageOf -/

@[simp] theorem storageOf_w (s : State) :
    (storageOf s).w = s.w := rfl
@[simp] theorem storageOf_node (s : State) :
    (storageOf s).node = s.node := rfl
@[simp] theorem storageOf_nodeCount (s : State) :
    (storageOf s).nodeCount = s.nodeCount := rfl
@[simp] theorem storageOf_root (s : State) :
    (storageOf s).root = s.root := rfl
@[simp] theorem storageOf_treeValid (s : State) :
    (storageOf s).treeValid = s.treeValid := rfl
@[simp] theorem storageOf_lt (s : State) :
    (storageOf s).lt = s.lt := rfl
@[simp] theorem storageOf_tableValid (s : State) :
    (storageOf s).tableValid = s.tableValid := rfl
@[simp] theorem storageOf_bseq (s : State) :
    (storageOf s).bseq = s.bseq := rfl
@[simp] theorem storageOf_bseqLen (s : State) :
    (storageOf s).bseqLen = s.bseqLen := rfl
@[simp] theorem storageOf_bseqTaint (s : State) :
    (storageOf s).bseqTaint = s.bseqTaint := rfl
@[simp] theorem storageOf_errCode (s : State) :
    (storageOf s).errCode = s.errCode := rfl
@[simp] theorem storageOf_errOpc (s : State) :
    (storageOf s).errOpc = s.errOpc := rfl
@[simp] theorem storageOf_errArg (s : State) :
    (storageOf s).errArg = s.errArg := rfl
@[simp] theorem storageOf_errMulti (s : State) :
    (storageOf s).errMulti = s.errMulti := rfl
@[simp] theorem storageOf_bseqCap (s : State) :
    (storageOf s).bseqCap = s.bseqCap := rfl
@[simp] theorem storageOf_phase (s : State) :
    (storageOf s).phase = .ready := rfl
@[simp] theorem storageOf_offered (s : State) :
    (storageOf s).offered = none := rfl
@[simp] theorem storageOf_script (s : State) :
    (storageOf s).script = [] := rfl
@[simp] theorem storageOf_responses (s : State) :
    (storageOf s).responses = [] := rfl

/-! ### resetEdge -/

@[simp] theorem resetEdge_w (s : State) :
    (resetEdge s).w = WeightTable.zero := rfl
@[simp] theorem resetEdge_node (s : State) :
    (resetEdge s).node = [] := rfl
@[simp] theorem resetEdge_nodeCount (s : State) :
    (resetEdge s).nodeCount = 0 := rfl
@[simp] theorem resetEdge_root (s : State) :
    (resetEdge s).root = 0 := rfl
@[simp] theorem resetEdge_treeValid (s : State) :
    (resetEdge s).treeValid = false := rfl
@[simp] theorem resetEdge_lt (s : State) :
    (resetEdge s).lt = LookupTable.cleared := rfl
@[simp] theorem resetEdge_tableValid (s : State) :
    (resetEdge s).tableValid = false := rfl
@[simp] theorem resetEdge_bseq (s : State) :
    (resetEdge s).bseq = [] := rfl
@[simp] theorem resetEdge_bseqLen (s : State) :
    (resetEdge s).bseqLen = 0 := rfl
@[simp] theorem resetEdge_bseqTaint (s : State) :
    (resetEdge s).bseqTaint = false := rfl
@[simp] theorem resetEdge_errCode (s : State) :
    (resetEdge s).errCode = 0 := rfl
@[simp] theorem resetEdge_errOpc (s : State) :
    (resetEdge s).errOpc = 0 := rfl
@[simp] theorem resetEdge_errArg (s : State) :
    (resetEdge s).errArg = 0 := rfl
@[simp] theorem resetEdge_errMulti (s : State) :
    (resetEdge s).errMulti = false := rfl
@[simp] theorem resetEdge_bseqCap (s : State) :
    (resetEdge s).bseqCap = s.bseqCap := rfl
@[simp] theorem resetEdge_phase (s : State) :
    (resetEdge s).phase = .clearing := rfl
@[simp] theorem resetEdge_offered (s : State) :
    (resetEdge s).offered = none := rfl
@[simp] theorem resetEdge_script (s : State) :
    (resetEdge s).script = s.script := rfl
@[simp] theorem resetEdge_responses (s : State) :
    (resetEdge s).responses = s.responses := rfl

/-! ### offerNext -/

@[simp] theorem offerNext_w (w : CmdWord) (s : State) :
    (offerNext w s).w = s.w := rfl
@[simp] theorem offerNext_node (w : CmdWord) (s : State) :
    (offerNext w s).node = s.node := rfl
@[simp] theorem offerNext_nodeCount (w : CmdWord) (s : State) :
    (offerNext w s).nodeCount = s.nodeCount := rfl
@[simp] theorem offerNext_root (w : CmdWord) (s : State) :
    (offerNext w s).root = s.root := rfl
@[simp] theorem offerNext_treeValid (w : CmdWord) (s : State) :
    (offerNext w s).treeValid = s.treeValid := rfl
@[simp] theorem offerNext_lt (w : CmdWord) (s : State) :
    (offerNext w s).lt = s.lt := rfl
@[simp] theorem offerNext_tableValid (w : CmdWord) (s : State) :
    (offerNext w s).tableValid = s.tableValid := rfl
@[simp] theorem offerNext_bseq (w : CmdWord) (s : State) :
    (offerNext w s).bseq = s.bseq := rfl
@[simp] theorem offerNext_bseqLen (w : CmdWord) (s : State) :
    (offerNext w s).bseqLen = s.bseqLen := rfl
@[simp] theorem offerNext_bseqTaint (w : CmdWord) (s : State) :
    (offerNext w s).bseqTaint = s.bseqTaint := rfl
@[simp] theorem offerNext_errCode (w : CmdWord) (s : State) :
    (offerNext w s).errCode = s.errCode := rfl
@[simp] theorem offerNext_errOpc (w : CmdWord) (s : State) :
    (offerNext w s).errOpc = s.errOpc := rfl
@[simp] theorem offerNext_errArg (w : CmdWord) (s : State) :
    (offerNext w s).errArg = s.errArg := rfl
@[simp] theorem offerNext_errMulti (w : CmdWord) (s : State) :
    (offerNext w s).errMulti = s.errMulti := rfl
@[simp] theorem offerNext_bseqCap (w : CmdWord) (s : State) :
    (offerNext w s).bseqCap = s.bseqCap := rfl
@[simp] theorem offerNext_phase (w : CmdWord) (s : State) :
    (offerNext w s).phase = .ready := rfl
@[simp] theorem offerNext_offered (w : CmdWord) (s : State) :
    (offerNext w s).offered = none := rfl
@[simp] theorem offerNext_script (w : CmdWord) (s : State) :
    (offerNext w s).script = offerEdge w :: s.script := rfl
@[simp] theorem offerNext_responses (w : CmdWord) (s : State) :
    (offerNext w s).responses = s.responses := rfl

/-! ### raiseResponse: only the phase moves (R72) -/

@[simp] theorem raiseResponse_w (s : State) : (raiseResponse s).w = s.w := by
  unfold raiseResponse; split <;> rfl
@[simp] theorem raiseResponse_node (s : State) : (raiseResponse s).node = s.node := by
  unfold raiseResponse; split <;> rfl
@[simp] theorem raiseResponse_nodeCount (s : State) : (raiseResponse s).nodeCount = s.nodeCount := by
  unfold raiseResponse; split <;> rfl
@[simp] theorem raiseResponse_root (s : State) : (raiseResponse s).root = s.root := by
  unfold raiseResponse; split <;> rfl
@[simp] theorem raiseResponse_treeValid (s : State) : (raiseResponse s).treeValid = s.treeValid := by
  unfold raiseResponse; split <;> rfl
@[simp] theorem raiseResponse_lt (s : State) : (raiseResponse s).lt = s.lt := by
  unfold raiseResponse; split <;> rfl
@[simp] theorem raiseResponse_tableValid (s : State) : (raiseResponse s).tableValid = s.tableValid := by
  unfold raiseResponse; split <;> rfl
@[simp] theorem raiseResponse_bseq (s : State) : (raiseResponse s).bseq = s.bseq := by
  unfold raiseResponse; split <;> rfl
@[simp] theorem raiseResponse_bseqLen (s : State) : (raiseResponse s).bseqLen = s.bseqLen := by
  unfold raiseResponse; split <;> rfl
@[simp] theorem raiseResponse_bseqTaint (s : State) : (raiseResponse s).bseqTaint = s.bseqTaint := by
  unfold raiseResponse; split <;> rfl
@[simp] theorem raiseResponse_errCode (s : State) : (raiseResponse s).errCode = s.errCode := by
  unfold raiseResponse; split <;> rfl
@[simp] theorem raiseResponse_errOpc (s : State) : (raiseResponse s).errOpc = s.errOpc := by
  unfold raiseResponse; split <;> rfl
@[simp] theorem raiseResponse_errArg (s : State) : (raiseResponse s).errArg = s.errArg := by
  unfold raiseResponse; split <;> rfl
@[simp] theorem raiseResponse_errMulti (s : State) : (raiseResponse s).errMulti = s.errMulti := by
  unfold raiseResponse; split <;> rfl
@[simp] theorem raiseResponse_bseqCap (s : State) : (raiseResponse s).bseqCap = s.bseqCap := by
  unfold raiseResponse; split <;> rfl
@[simp] theorem raiseResponse_offered (s : State) : (raiseResponse s).offered = s.offered := by
  unfold raiseResponse; split <;> rfl
@[simp] theorem raiseResponse_script (s : State) : (raiseResponse s).script = s.script := by
  unfold raiseResponse; split <;> rfl
@[simp] theorem raiseResponse_responses (s : State) : (raiseResponse s).responses = s.responses := by
  unfold raiseResponse; split <;> rfl

theorem raiseResponse_of_working {s : State} {rsp : RspWord} (h : s.phase = .working rsp) :
    raiseResponse s = { s with phase := .answering rsp } := by
  unfold raiseResponse; rw [h]

end Sys2Proof.Laws
end

