-- ==== Sys2Proof/Laws/Ops.lean ====
section
/-! SUPPORT. What each shared operation does, said once: tables, bit strings, responses, the error path and append. -/

namespace Sys2Proof.Laws

open Sys2Proof.Machine Sys2Proof.Safety

/-! ### Tables indexed by symbol -/

@[simp] theorem get_filled {α : Type} (a : α) (x : Sym) : (SymTable.filled a).get x = a := by
  simp [SymTable.get, SymTable.filled]

/-- Read after write: the written entry, and every other entry as before (R9). -/
theorem get_set {α : Type} (t : SymTable α) (x y : Sym) (a : α) :
    (t.set x a).get y = if y = x then a else t.get y := by
  simp only [SymTable.get, SymTable.set, List.getElem_set, BitVec.toNat_inj, eq_comm]

@[simp] theorem get_set_self {α : Type} (t : SymTable α) (x : Sym) (a : α) : (t.set x a).get x = a := by
  simp [get_set]

theorem get_set_ne {α : Type} (t : SymTable α) {x y : Sym} (a : α) (h : y ≠ x) : (t.set x a).get y = t.get y := by
  simp [get_set, h]

@[simp] theorem get_zero (x : Sym) : WeightTable.zero.get x = 0 := get_filled _ _

@[simp] theorem get_cleared (x : Sym) : LookupTable.cleared.get x = ⟨false, []⟩ := get_filled _ _

/-- Two tables with equal entries are equal: a table is exactly what its reads say. -/
theorem table_ext {α : Type} {t u : SymTable α} (h : ∀ x, t.get x = u.get x) : t = u := by
  obtain ⟨xs, hx⟩ := t
  obtain ⟨ys, hy⟩ := u
  congr 1
  refine List.ext_getElem (by rw [hx, hy]) fun i h₁ _ => ?_
  have hi : i < 256 := by rw [hx] at h₁; exact h₁
  have key := h (BitVec.ofNat 8 i)
  simpa [SymTable.get, Nat.mod_eq_of_lt hi] using key

/-! ### Capacity and word ranges -/

/-- The capacity is a multiple of 32, at least 32 and at most 2^31 bits (R5). -/
theorem bits_bounds (cap : BseqCap) : cap.bits % 32 = 0 ∧ 32 ≤ cap.bits ∧ cap.bits ≤ 2147483648 := by
  have h := cap.lastWord.isLt
  simp only [BseqCap.bits, BseqCap.words]
  omega

/-- `fits` is the capacity test of R150. -/
@[simp] theorem fits_iff (cap : BseqCap) (n : Nat) : fits cap n = true ↔ n ≤ cap.bits := by
  have h := (bits_bounds cap).2.1
  simp only [fits, Bool.or_eq_true, Nat.ble_eq]
  omega

/-- `hasWord` is the word range of R81. -/
@[simp] theorem hasWord_iff (cap : BseqCap) (k : Nat) : cap.hasWord k = true ↔ k < cap.words := by
  simp only [BseqCap.hasWord, BseqCap.words, Bool.or_eq_true, beq_iff_eq, Nat.ble_eq]
  omega

theorem words_eq (cap : BseqCap) : cap.words = cap.bits / 32 := by
  simp only [BseqCap.bits]
  omega

/-- The decoder's range test is the well-formedness of the command (R81). -/
theorem inStaticRange_eq_wellFormed (cap : BseqCap) (i : Instr) : inStaticRange cap i = WellFormed cap i := by
  rw [Bool.eq_iff_iff]
  cases i with
  | readNode imm => simp [inStaticRange, WellFormed, Nat.lt_succ_iff]
  | readCodeWord sym imm => simp [inStaticRange, WellFormed, Nat.lt_succ_iff]
  | bseqAddBit imm => simp [inStaticRange, WellFormed]
  | bseqAppendBits n imm => simp [inStaticRange, WellFormed]
  | readBseqWord imm => simp [inStaticRange, WellFormed]
  | _ => simp [inStaticRange, WellFormed]

/-! ### Bit strings and words -/

theorem bitsValue_testBit (q : Bits) (j : Nat) : (bitsValue q).testBit j = q.getD j false := by
  induction q generalizing j with
  | nil => simp [bitsValue]
  | cons b q ih =>
    cases j with
    | zero => cases b <;> simp [bitsValue, Nat.testBit_zero]
    | succ j =>
      have h : (b.toNat + 2 * bitsValue q) / 2 = bitsValue q := by cases b <;> simp; omega
      simp only [bitsValue, Nat.testBit_add_one, h, ih]
      simp

/-- The word view of a bit string: bit j is element 32k + j, or 0 past the end (R53). -/
theorem wordView_getLsbD (q : Bits) (k j : Nat) (h : j < 32) :
    (wordView q k).getLsbD j = q.getD (32 * k + j) false := by
  simp only [wordView, BitVec.getLsbD_ofNat, bitsValue_testBit, h, decide_true, Bool.true_and]
  simp [List.getD_eq_getElem?_getD, List.getElem?_drop, h]

@[simp] theorem immBits_length (n : BitVec 8) (imm : Data) : (immBits n imm).length = n.toNat := by
  simp [immBits]

theorem immBits_getElem? (n : BitVec 8) (imm : Data) (j : Nat) (h : j < n.toNat) :
    (immBits n imm)[j]? = some (imm.getLsbD j) := by
  simp [immBits, h]

/-! ### Ends of a command -/

theorem responseWord_zero (data : Data) : responseWord 0 data = okResponse data := rfl

/-- A success: only the phase changes, to the response with RC = 0 (R11). -/
theorem respond_eq (data : Data) (s : State) : respond data s = .next (responding (okResponse data) s) := rfl

theorem responseWord_arg (code arg : BitVec 8) : responseWord code (arg.setWidth 32) = errResponse code arg := by
  unfold responseWord errResponse
  ext i hi
  simp only [BitVec.getElem_append, BitVec.getElem_setWidth]
  grind

/-- A failure: the error recorded and answered, over the state reached (R11, R202). -/
theorem raise_eq (e : ErrKind) (opc : Opcode) (arg : BitVec 8) (s : State) :
    raise e opc arg s = .next (failing e.code opc arg s) := by
  simp only [raise, recordError_eq_withError, responseWord_arg, failing, responding]

/-! ### Append -/

/-- When the bits fit, all of them are appended (R150). -/
theorem appendCommand_of_fits {opc : Opcode} {arg : BitVec 8} {c : Bits} {s : State}
    (h : s.bseqLen.toNat + c.length ≤ s.bseqCap.bits) :
    appendCommand opc arg c s = .next (responding (okResponse 0)
      { s with bseq := s.bseq ++ c, bseqLen := s.bseqLen + BitVec.ofNat 32 c.length }) := by
  simp [appendCommand, appended, h, respond_eq]

/-- When they do not, none is: the sequence is tainted and CAPACITY_EXCEEDED raised (R150). -/
theorem appendCommand_of_not_fits {opc : Opcode} {arg : BitVec 8} {c : Bits} {s : State}
    (h : s.bseqCap.bits < s.bseqLen.toNat + c.length) :
    appendCommand opc arg c s = .next (failing 4 opc arg { s with bseqTaint := true }) := by
  simp [appendCommand, appended, Nat.not_le.mpr h, raise_eq, ErrKind.code]

/-- A length that fits does not wrap BSEQ_LEN (R30, R150). -/
theorem bseqLen_add_toNat {cap : BseqCap} {len : BitVec 32} {n : Nat} (h : len.toNat + n ≤ cap.bits) :
    (len + BitVec.ofNat 32 n).toNat = len.toNat + n := by
  have hb := (bits_bounds cap).2.2
  rw [BitVec.toNat_add, BitVec.toNat_ofNat]
  omega

end Sys2Proof.Laws
end

