-- ==== Sys2Proof/Laws/Exec.lean ====
section
/-! SUPPORT. What a command leaves of the channels, and what one step can do, said once. -/

namespace Sys2Proof.Laws

open Sys2Proof.Machine Sys2Proof.Safety

/-- What no command touches: the channels but for the phase, and the capacity. -/
def SameChannel (s t : State) : Prop :=
  t.offered = s.offered ∧ t.script = s.script ∧ t.responses = s.responses ∧ t.bseqCap = s.bseqCap

/-- `r` is a next state whose phase holds a response, with the channels of `s` otherwise as they were. -/
def Answers (s : State) (r : Result) : Prop :=
  ∃ t rsp, r = .next t ∧ t.phase = .working rsp ∧ SameChannel s t

theorem answers_respond {s u : State} (data : Data) (h : SameChannel s u) : Answers s (respond data u) :=
  ⟨_, _, rfl, rfl, h⟩

theorem answers_raise {s u : State} (e : ErrKind) (opc : Opcode) (arg : BitVec 8) (h : SameChannel s u) :
    Answers s (raise e opc arg u) :=
  ⟨_, _, raise_eq e opc arg u, rfl, h⟩

theorem answers_appendCommand {s u : State} (opc : Opcode) (arg : BitVec 8) (c : Bits) (h : SameChannel s u) :
    Answers s (appendCommand opc arg c u) := by
  by_cases hc : u.bseqLen.toNat + c.length ≤ u.bseqCap.bits
  · exact ⟨_, _, appendCommand_of_fits hc, rfl, h⟩
  · exact ⟨_, _, appendCommand_of_not_fits (Nat.lt_of_not_le hc), rfl, h⟩

theorem sameChannel_refl (s : State) : SameChannel s s := ⟨rfl, rfl, rfl, rfl⟩

theorem answers_execBuild (s : State) : Answers s (execBuild s) := by
  unfold execBuild
  split
  · exact answers_raise _ _ _ ⟨rfl, rfl, rfl, rfl⟩
  · exact answers_respond _ ⟨rfl, rfl, rfl, rfl⟩

theorem answers_execReadNode (imm : Data) (s : State) : Answers s (execReadNode imm s) := by
  unfold execReadNode
  split
  · exact answers_raise _ _ _ (sameChannel_refl s)
  · split
    · exact answers_respond _ (sameChannel_refl s)
    · exact answers_raise _ _ _ (sameChannel_refl s)

theorem answers_execGenTable (s : State) : Answers s (execGenTable s) := by
  unfold execGenTable
  split
  · exact answers_raise _ _ _ (sameChannel_refl s)
  · exact answers_respond _ ⟨rfl, rfl, rfl, rfl⟩

theorem answers_execEncode (sym : Sym) (s : State) : Answers s (execEncode sym s) := by
  unfold execEncode
  split
  · exact answers_raise _ _ _ ⟨rfl, rfl, rfl, rfl⟩
  · exact answers_appendCommand _ _ _ (sameChannel_refl s)

/-- A command's own effect never stops and never touches the channels but for its response. -/
theorem exec_answers (i : Instr) (s : State) : Answers s (exec i s) := by
  cases i with
  | build => exact answers_execBuild s
  | readNode imm => exact answers_execReadNode imm s
  | genTable => exact answers_execGenTable s
  | encode sym => exact answers_execEncode sym s
  | bseqAddBit imm => exact answers_appendCommand _ _ _ (sameChannel_refl s)
  | bseqAppendBits n imm => exact answers_appendCommand _ _ _ (sameChannel_refl s)
  | _ => exact ⟨_, _, rfl, rfl, rfl, rfl, rfl, rfl⟩

/-- Every success: the command `i` in state `s` answers `data` over the state `u`. -/
inductive Success (s : State) : Instr → Data → State → Prop where
  | nop : Success s .nop 0 s
  | softReset : Success s .softReset 0 (resetStorage s)
  | readStatus : Success s .readStatus (statusWord s) s
  | readError : Success s .readError (errorWord s) s
  | clearError : Success s .clearError 0 { s with errCode := 0, errOpc := 0, errArg := 0, errMulti := false }
  | loadWeight (sym : Sym) (imm : Data) : Success s (.loadWeight sym imm) 0 { s with w := s.w.set sym imm }
  | readWeight (sym : Sym) : Success s (.readWeight sym) (s.w.get sym) s
  | clearWeights : Success s .clearWeights 0 { s with w := WeightTable.zero }
  | build {f : Forest} : buildForest s.w = some f → Success s .build 0
      { discardTree s with node := f.node, nodeCount := f.count, root := rootOf f, treeValid := true }
  | readNode {imm : Data} {e : Node} : imm.toNat < s.nodeCount.toNat → s.node[imm.toNat]? = some e →
      Success s (.readNode imm) (nodeWord e) s
  | genTable : s.treeValid = true → Success s .genTable 0 { s with lt := tableOf s.node s.root, tableValid := true }
  | readCodeLen (sym : Sym) : Success s (.readCodeLen sym) (codeLenWord (s.lt.get sym)) s
  | readCodeWord (sym : Sym) (imm : Data) : Success s (.readCodeWord sym imm) (wordView (s.lt.get sym).code imm.toNat) s
  | encode {sym : Sym} : (s.lt.get sym).valid = true → s.bseqLen.toNat + (s.lt.get sym).code.length ≤ s.bseqCap.bits →
      Success s (.encode sym) 0 { s with
        bseq := s.bseq ++ (s.lt.get sym).code, bseqLen := s.bseqLen + BitVec.ofNat 32 (s.lt.get sym).code.length }
  | bseqClear : Success s .bseqClear 0 { s with bseq := [], bseqLen := 0, bseqTaint := false }
  | bseqAddBit {imm : Data} : s.bseqLen.toNat + 1 ≤ s.bseqCap.bits → Success s (.bseqAddBit imm) 0
      { s with bseq := s.bseq ++ [imm.getLsbD 0], bseqLen := s.bseqLen + 1 }
  | bseqAppendBits {n : BitVec 8} {imm : Data} : s.bseqLen.toNat + n.toNat ≤ s.bseqCap.bits →
      Success s (.bseqAppendBits n imm) 0
        { s with bseq := s.bseq ++ immBits n imm, bseqLen := s.bseqLen + BitVec.ofNat 32 n.toNat }
  | readBseqLen : Success s .readBseqLen s.bseqLen s
  | readBseqWord (imm : Data) : Success s (.readBseqWord imm) (wordView s.bseq imm.toNat) s

/-- Every failure: the command `i` in state `s` raises the error `code` with the argument `arg` over the state `u` (R200, R203). -/
inductive Failure (s : State) : Instr → BitVec 8 → BitVec 8 → State → Prop where
  | build : buildForest s.w = none → Failure s .build 1 0 (discardTree s)
  | readNode {imm : Data} : s.nodeCount.toNat ≤ imm.toNat ∨ s.node[imm.toNat]? = none → Failure s (.readNode imm) 6 0 s
  | genTable : s.treeValid = false → Failure s .genTable 6 0 s
  | missing {sym : Sym} : (s.lt.get sym).valid = false → Failure s (.encode sym) 2 sym { s with bseqTaint := true }
  | encode {sym : Sym} : (s.lt.get sym).valid = true → s.bseqCap.bits < s.bseqLen.toNat + (s.lt.get sym).code.length →
      Failure s (.encode sym) 4 sym { s with bseqTaint := true }
  | bseqAddBit {imm : Data} : s.bseqCap.bits < s.bseqLen.toNat + 1 →
      Failure s (.bseqAddBit imm) 4 0 { s with bseqTaint := true }
  | bseqAppendBits {n : BitVec 8} {imm : Data} : s.bseqCap.bits < s.bseqLen.toNat + n.toNat →
      Failure s (.bseqAppendBits n imm) 4 0 { s with bseqTaint := true }

/-- What a command can do: succeed with its own writes, or fail with its error recorded and answered (R11, R12). -/
inductive Ends (i : Instr) (s : State) : State → Prop where
  | success {data : Data} {u : State} : Success s i data u → Ends i s (responding (okResponse data) u)
  | failure {code arg : BitVec 8} {u : State} : Failure s i code arg u → Ends i s (failing code (opcodeOf i) arg u)

/-- The one inversion lemma of exec: how it ends is one of the cases of Success and Failure. -/
theorem exec_cases {i : Instr} {s t : State} (h : exec i s = .next t) : Ends i s t := by
  cases i with
  | build =>
    simp only [exec, execBuild] at h
    split at h
    next hf => rw [raise_eq] at h; cases h; exact .failure (.build hf)
    next f hf => cases h; exact .success (.build hf)
  | readNode imm =>
    simp only [exec, execReadNode] at h
    split at h
    next hn => rw [raise_eq] at h; cases h; exact .failure (.readNode (.inl hn))
    next hn =>
      split at h
      next e he => cases h; exact .success (.readNode (Nat.lt_of_not_le hn) he)
      next he => rw [raise_eq] at h; cases h; exact .failure (.readNode (.inr he))
  | genTable =>
    simp only [exec, execGenTable] at h
    split at h
    next ht => rw [raise_eq] at h; cases h; exact .failure (.genTable ht)
    next ht => cases h; exact .success (.genTable ht)
  | encode sym =>
    simp only [exec, execEncode] at h
    split at h
    next hv => rw [raise_eq] at h; cases h; exact .failure (.missing hv)
    next hv =>
      by_cases hc : s.bseqLen.toNat + (s.lt.get sym).code.length ≤ s.bseqCap.bits
      · rw [appendCommand_of_fits hc] at h; cases h; exact .success (.encode hv hc)
      · rw [appendCommand_of_not_fits (Nat.lt_of_not_le hc)] at h; cases h
        exact .failure (.encode hv (Nat.lt_of_not_le hc))
  | bseqAddBit imm =>
    by_cases hc : s.bseqLen.toNat + 1 ≤ s.bseqCap.bits
    · rw [exec, execBseqAddBit, appendCommand_of_fits hc] at h; cases h; exact .success (.bseqAddBit hc)
    · rw [exec, execBseqAddBit, appendCommand_of_not_fits (Nat.lt_of_not_le hc)] at h; cases h
      exact .failure (.bseqAddBit (Nat.lt_of_not_le hc))
  | bseqAppendBits n imm =>
    by_cases hc : s.bseqLen.toNat + n.toNat ≤ s.bseqCap.bits
    · rw [exec, execBseqAppendBits, appendCommand_of_fits (by rwa [immBits_length]), immBits_length] at h; cases h
      exact .success (.bseqAppendBits hc)
    · rw [exec, execBseqAppendBits, appendCommand_of_not_fits (by rw [immBits_length]; exact Nat.lt_of_not_le hc)] at h
      cases h
      exact .failure (.bseqAppendBits (Nat.lt_of_not_le hc))
  | nop => cases h; exact .success .nop
  | softReset => cases h; exact .success .softReset
  | readStatus => cases h; exact .success .readStatus
  | readError => cases h; exact .success .readError
  | clearError => cases h; exact .success .clearError
  | loadWeight sym imm => cases h; exact .success (.loadWeight sym imm)
  | readWeight sym => cases h; exact .success (.readWeight sym)
  | clearWeights => cases h; exact .success .clearWeights
  | readCodeLen sym => cases h; exact .success (.readCodeLen sym)
  | readCodeWord sym imm => cases h; exact .success (.readCodeWord sym imm)
  | bseqClear => cases h; exact .success .bseqClear
  | readBseqLen => cases h; exact .success .readBseqLen
  | readBseqWord imm => cases h; exact .success (.readBseqWord imm)

/-- Accepting a word: its command's rule, or its rejection over an otherwise unchanged state (R80). -/
theorem acceptWord_of_ok {w : CmdWord} {s : State} {i : Instr} (h : decode s.bseqCap w = .ok i) :
    acceptWord w s = exec i s := by
  simp [acceptWord, h]

theorem acceptWord_of_error {w : CmdWord} {s : State} {why : Illegal} (h : decode s.bseqCap w = .error why) :
    acceptWord w s = .next (failing 5 (opcField w) why.subcause s) := by
  simp [acceptWord, h, raise_eq, ErrKind.code]

theorem acceptWord_answers (w : CmdWord) (s : State) : Answers s (acceptWord w s) := by
  cases h : decode s.bseqCap w with
  | ok i => rw [acceptWord_of_ok h]; exact exec_answers i s
  | error why => rw [acceptWord_of_error h]; exact ⟨_, _, rfl, rfl, rfl, rfl, rfl, rfl⟩

/-- What an edge outside reset does from `s`, whose sample is already taken from the script, by phase (R71, R72, R232). -/
inductive RunEdge (e : Edge) (s : State) : State → Prop where
  | clear : s.phase = .clearing →
      RunEdge e s { s with phase := if e.busy then .clearing else .ready, offered := e.offer }
  | idle : s.phase = .ready → e.cmdValid = false → RunEdge e s { s with offered := none }
  | accept {u : State} : s.phase = .ready → e.cmdValid = true → acceptWord e.cmdData { s with offered := none } = .next u →
      RunEdge e s (if e.busy then u else raiseResponse u)
  | work {rsp : RspWord} : s.phase = .working rsp →
      RunEdge e s { s with phase := if e.busy then .working rsp else .answering rsp, offered := e.offer }
  | deliver {rsp : RspWord} : s.phase = .answering rsp → e.rspReady = true →
      RunEdge e s { s with phase := .ready, responses := s.responses ++ [rsp], offered := e.offer }
  | hold {rsp : RspWord} : s.phase = .answering rsp → e.rspReady = false → RunEdge e s { s with offered := e.offer }

theorem runEdge_cases {e : Edge} {s t : State} (h : runEdge e s = .next t) : RunEdge e s t := by
  unfold runEdge at h
  split at h
  next hp => cases h; exact .clear hp
  next hp =>
    cases hv : e.cmdValid with
    | false =>
      simp only [Edge.offer, hv] at h
      cases h
      exact .idle hp hv
    | true =>
      simp only [Edge.offer, hv, if_true] at h
      obtain ⟨u, _, hu, _⟩ := acceptWord_answers e.cmdData { s with offered := none }
      rw [hu] at h
      cases h
      exact .accept hp hv hu
  next rsp hp => cases h; exact .work hp
  next rsp hp =>
    split at h
    next hr => cases h; exact .deliver hp hr
    next hr => cases h; exact .hold hp hr

/-- A step at an edge outside reset with the handshake kept is that edge, its sample taken from the script (R70, R71). -/
theorem step_eq_runEdge {s : State} {e : Edge} {rest : List Edge} (hs : s.script = e :: rest) (hr : e.rstN = true)
    (hk : handshakeKept s e = true) : step s = runEdge e { s with script := rest } := by
  have hk' : handshakeKept { s with script := rest } e = true := hk
  simp only [step, nextEdge, hs, clockEdge, hr]
  split
  · rfl
  next h => exact absurd (h.symm.trans hk') (by decide)

/-- A step at a reset edge, whatever the host does (R206, R230). -/
theorem step_eq_resetEdge {s : State} {e : Edge} {rest : List Edge} (hs : s.script = e :: rest) (hr : e.rstN = false) :
    step s = .next (resetEdge { s with script := rest }) := by
  simp only [step, nextEdge, hs, clockEdge, hr]

/-- What a step can do: no edge, a reset edge, or an edge outside reset with the handshake kept (R70, R206). -/
theorem step_cases {s t : State} (h : step s = .next t) :
    (s.script = [] ∧ t = s) ∨
    (∃ e rest, s.script = e :: rest ∧ e.rstN = false ∧ t = resetEdge { s with script := rest }) ∨
    (∃ e rest, s.script = e :: rest ∧ e.rstN = true ∧ handshakeKept s e = true ∧ RunEdge e { s with script := rest } t) := by
  unfold step nextEdge at h
  split at h
  next hs => cases h; exact .inl ⟨hs, rfl⟩
  next e rest hs =>
    unfold clockEdge at h
    split at h
    next hr => cases h; exact .inr (.inl ⟨e, rest, hs, hr, rfl⟩)
    next hr =>
      split at h
      next hk => exact .inr (.inr ⟨e, rest, hs, hr, hk, runEdge_cases h⟩)
      next hk => cases h

end Sys2Proof.Laws
end

