-- ==== Sys2Proof/Laws/PerInstr.lean ====
section
/-! SUPPORT. Per-command facts about the syntax: each command has its row in the opcode map of 30_encoding.md R79, found by its
opcode, which rebuilds the command from its own operand fields. -/

namespace Sys2Proof.Laws.TableRow

/-- The first row of the opcode map with the command's opcode rebuilds the command from its fields A and IMM. -/
def Statement (i : Instr) : Prop :=
  ∃ row, opcodeTable.find? (fun r => r.opc == opcodeOf i) = some row ∧
    row.command (operandA i) (operandImm i) = i

theorem nop : Statement (.nop) := ⟨_, rfl, rfl⟩

theorem softReset : Statement (.softReset) := ⟨_, rfl, rfl⟩

theorem readStatus : Statement (.readStatus) := ⟨_, rfl, rfl⟩

theorem readError : Statement (.readError) := ⟨_, rfl, rfl⟩

theorem clearError : Statement (.clearError) := ⟨_, rfl, rfl⟩

theorem loadWeight (sym : Sym) (imm : Data) : Statement (.loadWeight sym imm) := ⟨_, rfl, rfl⟩

theorem readWeight (sym : Sym) : Statement (.readWeight sym) := ⟨_, rfl, rfl⟩

theorem clearWeights : Statement (.clearWeights) := ⟨_, rfl, rfl⟩

theorem build : Statement (.build) := ⟨_, rfl, rfl⟩

theorem readNode (imm : Data) : Statement (.readNode imm) := ⟨_, rfl, rfl⟩

theorem genTable : Statement (.genTable) := ⟨_, rfl, rfl⟩

theorem readCodeLen (sym : Sym) : Statement (.readCodeLen sym) := ⟨_, rfl, rfl⟩

theorem readCodeWord (sym : Sym) (imm : Data) : Statement (.readCodeWord sym imm) := ⟨_, rfl, rfl⟩

theorem encode (sym : Sym) : Statement (.encode sym) := ⟨_, rfl, rfl⟩

theorem bseqClear : Statement (.bseqClear) := ⟨_, rfl, rfl⟩

theorem bseqAddBit (imm : Data) : Statement (.bseqAddBit imm) := ⟨_, rfl, rfl⟩

theorem bseqAppendBits (n : BitVec 8) (imm : Data) : Statement (.bseqAppendBits n imm) := ⟨_, rfl, rfl⟩

theorem readBseqLen : Statement (.readBseqLen) := ⟨_, rfl, rfl⟩

theorem readBseqWord (imm : Data) : Statement (.readBseqWord imm) := ⟨_, rfl, rfl⟩

end Sys2Proof.Laws.TableRow
end

