-- ==== Sys2Proof/Tests/Slice0.lean ====
section
/-! SUPPORT. Tests of the model against the words and vectors of spec/95_test_vectors.md and of the rules' own examples, and
for every statement of Certificates/Slice0/Obligations.lean that has hypotheses a concrete case that meets them. -/

namespace Sys2Proof.Tests

open Sys2Proof.Machine Sys2Proof.Safety Sys2Proof.Laws

/-! ### WellFormed refuses what R81 refuses -/

theorem test_wellFormed_readNode : WellFormed ⟨1⟩ (.readNode 510) = true ∧ WellFormed ⟨1⟩ (.readNode 511) = false := by
  decide

theorem test_wellFormed_readCodeWord :
    WellFormed ⟨1⟩ (.readCodeWord 0x61 7) = true ∧ WellFormed ⟨1⟩ (.readCodeWord 0x61 8) = false := by
  decide

theorem test_wellFormed_bseqAddBit : WellFormed ⟨1⟩ (.bseqAddBit 1) = true ∧ WellFormed ⟨1⟩ (.bseqAddBit 2) = false := by
  decide

theorem test_wellFormed_bseqAppendBits :
    WellFormed ⟨1⟩ (.bseqAppendBits 32 0) = true ∧ WellFormed ⟨1⟩ (.bseqAppendBits 33 0) = false := by
  decide

theorem test_wellFormed_readBseqWord :
    WellFormed ⟨1⟩ (.readBseqWord 1) = true ∧ WellFormed ⟨1⟩ (.readBseqWord 2) = false := by
  decide

/-! ### Each command's word, written out from R74 and R75 (field OPC, A, reserved, IMM) -/

theorem test_decode_control (cap : BseqCap) :
    decode cap 0b00000000_00000000_0000000000000000_00000000000000000000000000000000 = .ok .nop ∧
    decode cap 0b00000001_00000000_0000000000000000_00000000000000000000000000000000 = .ok .softReset ∧
    decode cap 0b00000010_00000000_0000000000000000_00000000000000000000000000000000 = .ok .readStatus ∧
    decode cap 0b00000011_00000000_0000000000000000_00000000000000000000000000000000 = .ok .readError ∧
    decode cap 0b00000100_00000000_0000000000000000_00000000000000000000000000000000 = .ok .clearError :=
  ⟨rfl, rfl, rfl, rfl, rfl⟩

theorem test_decode_weights (cap : BseqCap) :
    decode cap 0b00010000_01100001_0000000000000000_10000000000000000000000000000101 = .ok (.loadWeight 0x61 0x80000005) ∧
    decode cap 0b00010001_11111111_0000000000000000_00000000000000000000000000000000 = .ok (.readWeight 0xFF) ∧
    decode cap 0b00010010_00000000_0000000000000000_00000000000000000000000000000000 = .ok .clearWeights :=
  ⟨rfl, rfl, rfl⟩

theorem test_decode_tree (cap : BseqCap) :
    decode cap 0b00100000_00000000_0000000000000000_00000000000000000000000000000000 = .ok .build ∧
    decode cap 0b00100001_00000000_0000000000000000_00000000000000000000000111111110 = .ok (.readNode 510) :=
  ⟨rfl, rfl⟩

theorem test_decode_table (cap : BseqCap) :
    decode cap 0b00110000_00000000_0000000000000000_00000000000000000000000000000000 = .ok .genTable ∧
    decode cap 0b00110001_01100010_0000000000000000_00000000000000000000000000000000 = .ok (.readCodeLen 0x62) ∧
    decode cap 0b00110010_01100011_0000000000000000_00000000000000000000000000000111 = .ok (.readCodeWord 0x63 7) ∧
    decode cap 0b01000000_01111010_0000000000000000_00000000000000000000000000000000 = .ok (.encode 0x7A) :=
  ⟨rfl, rfl, rfl, rfl⟩

theorem test_decode_bseq (cap : BseqCap) :
    decode cap 0b01010000_00000000_0000000000000000_00000000000000000000000000000000 = .ok .bseqClear ∧
    decode cap 0b01010001_00000000_0000000000000000_00000000000000000000000000000001 = .ok (.bseqAddBit 1) ∧
    decode cap 0b01010010_00000011_0000000000000000_00000000000000000000000000000110 = .ok (.bseqAppendBits 3 6) ∧
    decode cap 0b01010011_00000000_0000000000000000_00000000000000000000000000000000 = .ok .readBseqLen ∧
    decode cap 0b01010100_00000000_0000000000000000_00000000000000000000000000000000 = .ok (.readBseqWord 0) :=
  ⟨rfl, rfl, rfl, rfl, rfl⟩

theorem test_decodeTableWord : decodeTableWord 64 0x5400000000000000 = some (.readBseqWord 0) ∧
    decodeTableWord 64 0x0500000000000000 = none := by
  decide

/-- R84's examples of assembler lines, with their words. -/
theorem test_assemble :
    (assemble "LOAD_WEIGHT" [.character 'a', .number 5]).map encode = some 0x1061000000000005 ∧
    (assemble "READ_CODE_WORD" [.character 'c', .number 0]).map encode = some 0x3263000000000000 ∧
    (assemble "BSEQ_APPEND_BITS" [.number 3, .number 5]).map encode = some 0x5203000000000005 ∧
    (assemble "BUILD" []).map encode = some 0x2000000000000000 := by
  decide

/-! ### R236's boot sequence -/

/-- The boot of "aab", which wants its bits. -/
def bootAab : BootPlan := ⟨.software, [(0x62, 1), (0x61, 2)], [0x61, 0x61, 0x62], true⟩

/-- The steps of R236 in order, when BUILD succeeds and the length is 3. -/
theorem test_boot : bootSequence bootAab 0 3 =
    [.softReset, .clearWeights, .loadWeight 0x61 2, .loadWeight 0x62 1, .build, .genTable, .bseqClear,
      .encode 0x61, .encode 0x61, .encode 0x62, .readStatus, .readBseqLen, .readBseqWord 0] := by
  decide

/-- Step 3: with BUILD's response the host goes on, or stops on INSUFFICIENT_NODES. -/
theorem test_boot_stops : bootNext bootAab [0, 0, 0, 0, 0] = some .genTable ∧
    bootNext bootAab [0, 0, 0, 0, 0x0100000000000000] = none := by
  decide

/-! ### Small states -/

/-- A core with BSEQ_CAP_BITS = 64, the capacity the vectors use, right after reset. -/
def core64 : State := { State.reset with bseqCap := ⟨1⟩ }

/-- The state after the word `w`. -/
def after (w : CmdWord) (s : State) : State :=
  match acceptWord w s with
  | .next t => t
  | .fault _ => s
  | .refused _ => s

/-- The response to the word `w`. -/
def answer (w : CmdWord) (s : State) : RspWord := (inFlight (after w s)).headD 0

/-- S1's weights {a:5, b:2, c:1, d:1}. -/
def weightsT1 : State :=
  { core64 with w := (((WeightTable.zero.set 0x61 5).set 0x62 2).set 0x63 1).set 0x64 1 }

/-- V-T1: S1's tree. -/
def treeT1 : State := after 0x2000000000000000 weightsT1

/-- V-G1: S1's tree and table. -/
def tableT1 : State := after 0x3000000000000000 treeT1

/-- S4's weights {a:1, b:1}. -/
def weightsT2 : State := { core64 with w := (WeightTable.zero.set 0x61 1).set 0x62 1 }

/-- S4's tree and table, written out (V-T2, V-G2). -/
def tableT2 : State :=
  { weightsT2 with
    node := [.leaf 0x61, .leaf 0x62, .internal 0 1], nodeCount := 3, root := 2, treeValid := true,
    lt := (LookupTable.cleared.set 0x61 ⟨true, [false]⟩).set 0x62 ⟨true, [true]⟩, tableValid := true }

/-- S2's weights {x:10}. -/
def weightsT4 : State := { core64 with w := WeightTable.zero.set 0x78 10 }

/-- A core whose accumulator of 64 bits is full. -/
def full64 : State := { tableT2 with bseq := List.replicate 64 false, bseqLen := 64 }

/-! ### One step each, from the vectors -/

/-- V-C4. -/
theorem test_nop : answer 0 core64 = 0 := by decide +kernel

/-- V-C1 rows 2 and 3. -/
theorem test_softReset : answer 0x0200000000000000 (after 0x0100000000000000 tableT1) = 0 := by decide +kernel

/-- R192's example. -/
theorem test_readStatus : answer 0x0200000000000000 tableT1 = 0x00180703 := by decide +kernel

/-- V-E2 row 5: 'z' has no code. -/
theorem test_readError : answer 0x0300000000000000 (after 0x407A000000000000 tableT1) = 0x007A4002 := by decide +kernel

/-- V-C3: the first error is kept, and ERR_MULTI set. -/
theorem test_readError_multi :
    answer 0x0300000000000000 (after 0x2000000000000000 (after 0x0500000000000000 core64)) = 0x01010505 := by
  decide +kernel

/-- V-E2 row 7: CLEAR_ERROR does not clear the taint. -/
theorem test_clearError :
    answer 0x0200000000000000 (after 0x0400000000000000 (after 0x407A000000000000 tableT1)) = 0x00180707 := by
  decide +kernel

/-- V-W1 rows 3 and 4. -/
theorem test_loadWeight : answer 0x11FF000000000000 (after 0x10FF0000FFFFFFFF core64) = 0xFFFFFFFF := by decide +kernel

/-- R101's example. -/
theorem test_readWeight : answer 0x1161000000000000 weightsT1 = 5 := by decide +kernel

/-- V-W1 rows 7 and 8. -/
theorem test_clearWeights : answer 0x1161000000000000 (after 0x1200000000000000 weightsT1) = 0 := by decide +kernel

/-- V-T1's tree. -/
theorem test_build : treeT1.node =
    [.leaf 0x63, .leaf 0x64, .leaf 0x62, .leaf 0x61, .internal 0 1, .internal 4 2, .internal 5 3] ∧
    treeT1.nodeCount = 7 ∧ treeT1.root = 6 := by
  decide +kernel

/-- V-T3's weights {a:1, b:1, c:1, d:1}. -/
def weightsT3 : State :=
  { core64 with w := (((WeightTable.zero.set 0x61 1).set 0x62 1).set 0x63 1).set 0x64 1 }

/-- V-T3, the tie-break vector: the merged entry goes before every entry of equal weight. -/
theorem test_build_ties : (after 0x2000000000000000 weightsT3).node =
    [.leaf 0x61, .leaf 0x62, .leaf 0x63, .leaf 0x64, .internal 0 1, .internal 2 3, .internal 5 4] := by
  decide +kernel

/-- R111's example. -/
theorem test_readNode : answer 0x2100000000000006 treeT1 = 0x80000605 := by decide +kernel

/-- V-T12. -/
theorem test_readNode_past : answer 0x2100000000000007 treeT1 = 0x0600000000000000 := by decide +kernel

/-- V-G1's codes. -/
theorem test_genTable : tableT1.lt.get 0x61 = ⟨true, [true]⟩ ∧ tableT1.lt.get 0x62 = ⟨true, [false, true]⟩ ∧
    tableT1.lt.get 0x63 = ⟨true, [false, false, false]⟩ ∧ tableT1.lt.get 0x64 = ⟨true, [false, false, true]⟩ := by
  decide +kernel

/-- V-G3. -/
theorem test_genTable_no_tree : answer 0x3000000000000000 core64 = 0x0600000000000000 := by decide +kernel

/-- R132's example. -/
theorem test_readCodeLen : answer 0x3162000000000000 tableT1 = 0x102 := by decide +kernel

/-- R133's example. -/
theorem test_readCodeWord : answer 0x3264000000000000 tableT1 = 4 := by decide +kernel

/-- V-E2 row 1: the missing symbol is named, and the sequence tainted. -/
theorem test_encode_missing : answer 0x407A000000000000 tableT1 = 0x020000000000007A ∧
    (after 0x407A000000000000 tableT1).bseqTaint = true := by
  decide +kernel

/-- R170's example, after it 'b' of V-G1. -/
theorem test_encode : (after 0x4062000000000000 (after 0x4061000000000000 tableT1)).bseq = [true, false, true] := by
  decide +kernel

/-- V-B2 rows 9, 14 and 15: a full accumulator, and BSEQ_CLEAR that does not clear the error. -/
theorem test_bseqClear : answer 0x0200000000000000
    (after 0x5000000000000000 (after 0x5100000000000000 { core64 with bseq := List.replicate 64 false, bseqLen := 64 })) = 8 := by
  decide +kernel

/-- V-B2 row 9. -/
theorem test_bseqAddBit_full : answer 0x5100000000000000 full64 = 0x0400000000000000 := by decide +kernel

/-- V-B1 rows 1 and 2. -/
theorem test_bseqAppendBits : (after 0x5203000000000006 (after 0x5100000000000001 core64)).bseq =
    [true, false, true, true] := by
  decide +kernel

/-- V-B2 row 2: the bits of IMM above N are ignored. -/
theorem test_bseqAppendBits_ignored : (after 0x52040000FFFFFFF5 core64).bseq = [true, false, true, false] := by
  decide +kernel

/-- V-B2 row 11. -/
theorem test_readBseqLen : answer 0x5300000000000000 full64 = 0x40 := by decide +kernel

/-- V-B1 row 4. -/
theorem test_readBseqWord :
    answer 0x5400000000000000 { core64 with bseq := [true, false, true, true], bseqLen := 4 } = 0xD := by
  decide +kernel

/-- The first step after reset runs the table word, at the open capacity: R152's example. -/
theorem test_step_first_command :
    ∃ t, step (State.reset.withFetchWord 64 0x5100000000000001) = .next t ∧ t.bseq = [true] ∧ t.phase = .answering 0 :=
  ⟨_, rfl, rfl, rfl⟩

/-! ### The two-symbol state meets the invariants, and commands reach it -/

theorem tableT2_is_reached :
    storageOf tableT2 = storageOf (after 0x3000000000000000 (after 0x2000000000000000 weightsT2)) := by
  decide +kernel

theorem tableT2_nodes (i : Nat) (e : Node) (h : tableT2.node[i]? = some e) :
    (i = 0 ∧ e = .leaf 0x61) ∨ (i = 1 ∧ e = .leaf 0x62) ∨ (i = 2 ∧ e = .internal 0 1) := by
  match i, h with
  | 0, h => cases h; exact .inl ⟨rfl, rfl⟩
  | 1, h => cases h; exact .inr (.inl ⟨rfl, rfl⟩)
  | 2, h => cases h; exact .inr (.inr ⟨rfl, rfl⟩)

theorem tableT2_internal {i : Nat} {l r : NodeIdx} (h : tableT2.node[i]? = some (.internal l r)) :
    i = 2 ∧ l = 0 ∧ r = 1 := by
  rcases tableT2_nodes _ _ h with ⟨_, h'⟩ | ⟨_, h'⟩ | ⟨hi, h'⟩ <;> cases h'
  exact ⟨hi, rfl, rfl⟩

/-- From a leaf no path leads on. -/
theorem tableT2_path_leaf {i j : NodeIdx} {q : Bits} (hi : i.toNat ≠ 2) (h : Path tableT2.node i q j) : q = [] ∧ j = i := by
  cases h with
  | here => exact ⟨rfl, rfl⟩
  | left h _ => exact absurd (tableT2_internal h).1 hi
  | right h _ => exact absurd (tableT2_internal h).1 hi

theorem tableT2_isCode (sym : Sym) (q : Bits) :
    IsCode tableT2.node tableT2.root sym q ↔ (sym = 0x61 ∧ q = [false]) ∨ (sym = 0x62 ∧ q = [true]) := by
  constructor
  · rintro ⟨j, hp, hj⟩
    cases hp with
    | here => cases hj
    | left h hp =>
      obtain ⟨_, rfl, rfl⟩ := tableT2_internal h
      obtain ⟨rfl, rfl⟩ := tableT2_path_leaf (by decide) hp
      exact .inl ⟨by cases hj; rfl, rfl⟩
    | right h hp =>
      obtain ⟨_, rfl, rfl⟩ := tableT2_internal h
      obtain ⟨rfl, rfl⟩ := tableT2_path_leaf (by decide) hp
      exact .inr ⟨by cases hj; rfl, rfl⟩
  · rintro (⟨rfl, rfl⟩ | ⟨rfl, rfl⟩)
    · exact ⟨0, .left (l := 0) (r := 1) rfl (.here 0), rfl⟩
    · exact ⟨1, .right (l := 0) (r := 1) rfl (.here 1), rfl⟩

theorem tableT2_isTree : IsTree tableT2.node tableT2.root where
  count := by decide
  bounded := by decide
  rootLast := by decide
  childrenBelow i l r h := by
    obtain ⟨rfl, rfl, rfl⟩ := tableT2_internal h
    decide
  oneParent c h := by
    have h3 : c < 3 := h
    match c, h3 with
    | 0, _ => decide
    | 1, _ => decide
    | 2, _ => decide
  distinctLeaves := by decide
  reachable i h := by
    have h3 : i.toNat < 3 := h
    have hi : i = BitVec.ofNat 9 i.toNat := by simp
    generalize i.toNat = n at h3 hi
    subst hi
    match n, h3 with
    | 0, _ => exact ⟨[false], .left (l := 0) (r := 1) rfl (.here 0)⟩
    | 1, _ => exact ⟨[true], .right (l := 0) (r := 1) rfl (.here 1)⟩
    | 2, _ => exact ⟨[], .here 2⟩

theorem tableT2_get (sym : Sym) : tableT2.lt.get sym =
    if sym = 0x62#8 then ⟨true, [true]⟩ else if sym = 0x61#8 then ⟨true, [false]⟩ else ⟨false, []⟩ := by
  simp only [tableT2, get_set, get_cleared]
  rfl

/-- A state that meets the invariants does so with any sequence that its length and capacity allow. -/
theorem inv_with_bseq {s : State} (h : Inv s) {q : Bits} {len : BitVec 32} (hl : len.toNat = q.length)
    (hc : q.length ≤ s.bseqCap.bits) : Inv { s with bseq := q, bseqLen := len } :=
  ⟨h.nodeCount, h.noTree, h.tree, h.table, h.noCode, h.noTable, ⟨hl, hc⟩, h.error⟩

theorem tableT2_inv : Inv tableT2 where
  nodeCount := by decide
  noTree h := by cases h
  tree _ := tableT2_isTree
  table _ := ⟨rfl, fun sym q => by
    rw [tableT2_get, tableT2_isCode]
    by_cases h2 : sym = 0x62#8
    · subst h2; simp [eq_comm]
    · by_cases h1 : sym = 0x61#8
      · subst h1; simp [eq_comm]
      · simp [h1, h2]⟩
  noCode sym h := by
    rw [tableT2_get] at *
    split at h
    · cases h
    · split at h
      · cases h
      · simp [*]
  noTable h := by cases h
  length := by decide
  error _ := ⟨rfl, rfl, rfl⟩

theorem full64_inv : Inv full64 := inv_with_bseq tableT2_inv (by decide) (by decide)

/-! ### Every statement's hypotheses can be met -/

theorem witness_decode_of_encode : WellFormed ⟨1⟩ (.readBseqWord 1) = true := by decide

theorem witness_encode_of_decoded : decode ⟨1⟩ 0x52210000FFFFFFFF = .error .operandOutOfRange ∧
    decode ⟨1⟩ 0x52200000FFFFFFFF = .ok (.bseqAppendBits 32 0xFFFFFFFF) := by
  decide

theorem witness_words_rejected :
    ¬ Assigned 0xFF12345678ABCDEF ∧ (Assigned 0x2101000000000258 ∧ ¬ ReservedZero 0x2101000000000258) ∧
    (Assigned 0x21000000000001FF ∧ ReservedZero 0x21000000000001FF ∧ ¬ InStaticRange core64.bseqCap 0x21000000000001FF) ∧
    (Assigned 0x5400000000000002 ∧ ReservedZero 0x5400000000000002 ∧ ¬ InStaticRange core64.bseqCap 0x5400000000000002) ∧
    (Assigned 0x5400000000000001 ∧ ReservedZero 0x5400000000000001 ∧ InStaticRange core64.bseqCap 0x5400000000000001) ∧
    (Assigned 0x21000000000001FE ∧ ReservedZero 0x21000000000001FE ∧ InStaticRange core64.bseqCap 0x21000000000001FE) :=
  ⟨by decide, ⟨by decide, by decide⟩, ⟨by decide, by decide, by decide⟩, ⟨by decide, by decide, by decide⟩,
    ⟨by decide, by decide, by decide⟩, ⟨by decide, by decide, by decide⟩⟩

/-- The edge at which a host offers LOAD_WEIGHT 'a', 5 and is not ready for a response. -/
def loadEdge : Edge := offerEdge 0x1061000000000005

theorem witness_step_runs : ∃ (s : State) (e : Edge) (rest : List Edge) (i : Instr), s.script = e :: rest ∧ e.rstN = true ∧
    e.cmdValid = true ∧ s.phase = .ready ∧ (s.offered = none ∨ s.offered = some e.cmdData) ∧
    decode s.bseqCap e.cmdData = .ok i :=
  ⟨{ core64 with script := [loadEdge] }, loadEdge, [], .loadWeight 0x61 5, by decide⟩

theorem witness_step_rejects : ∃ (s : State) (e : Edge) (rest : List Edge) (why : Illegal), s.script = e :: rest ∧
    e.rstN = true ∧ e.cmdValid = true ∧ s.phase = .ready ∧ (s.offered = none ∨ s.offered = some e.cmdData) ∧
    decode s.bseqCap e.cmdData = .error why :=
  ⟨{ core64 with script := [offerEdge 5] }, offerEdge 5, [], .reservedNonZero, by decide⟩

theorem witness_response_held : ∃ (s : State) (e : Edge) (rest : List Edge) (rsp : RspWord), s.script = e :: rest ∧
    e.rstN = true ∧ s.phase = .answering rsp ∧ handshakeKept s e = true :=
  ⟨{ core64 with script := [⟨true, false, 0, true, false⟩], phase := .answering 5 }, _, [], 5, rfl, by decide⟩

theorem witness_storage_changes : ∃ (s t : State) (e : Edge) (rest : List Edge), s.script = e :: rest ∧ e.rstN = true ∧
    cmdReady s = false ∧ step s = .next t :=
  ⟨{ core64 with script := [loadEdge], phase := .answering 5 }, _, loadEdge, [], rfl, rfl, rfl, rfl⟩

theorem witness_storage_changes_idle : ∃ (s t : State) (e : Edge) (rest : List Edge), s.script = e :: rest ∧ e.rstN = true ∧
    e.cmdValid = false ∧ step s = .next t :=
  ⟨{ core64 with script := [⟨true, false, 0, true, false⟩] }, _, _, [], rfl, rfl, rfl, rfl⟩

/-- The two other clauses: a command in flight while the host offers the next, and an idle core. -/
theorem witness_edge_working_idle : (∃ (s : State) (e : Edge) (rest : List Edge) (rsp : RspWord), s.script = e :: rest ∧
      e.rstN = true ∧ s.phase = .working rsp ∧ handshakeKept s e = true ∧ e.cmdValid = true) ∧
    ∃ (s : State) (e : Edge) (rest : List Edge), s.script = e :: rest ∧ e.rstN = true ∧ s.phase = .ready ∧
      e.cmdValid = false ∧ handshakeKept s e = true :=
  ⟨⟨{ core64 with script := [loadEdge], phase := .working 5 }, loadEdge, [], 5, rfl, by decide⟩,
    { core64 with script := [⟨true, false, 0, true, false⟩] }, _, [], rfl, by decide⟩

theorem witness_reset_edge : ∃ (s t u : State) (e : Edge) (rest : List Edge), s.script = e :: rest ∧ e.rstN = false ∧
    step s = .next t ∧ exec .softReset s = .next u :=
  ⟨{ tableT2 with script := [⟨false, true, 0, true, false⟩], phase := .working 3, offered := some 5 }, _, _, _, [], rfl, rfl,
    rfl, rfl⟩

theorem witness_reset_clear : ∃ (s : State) (e : Edge) (rest : List Edge), s.script = e :: rest ∧ e.rstN = true ∧
    s.phase = .clearing ∧ handshakeKept s e = true :=
  ⟨{ core64 with script := [loadEdge], phase := .clearing }, loadEdge, [], by decide⟩

theorem witness_broken_handshake : ∃ s : State, (∃ f, step s = .fault f) ∧ ∃ (e : Edge) (rest : List Edge) (w : CmdWord),
    s.script = e :: rest ∧ e.rstN = true ∧ s.offered = some w ∧ ¬ (e.cmdValid = true ∧ e.cmdData = w) :=
  ⟨{ core64 with script := [offerEdge 5], offered := some 4 }, ⟨_, rfl⟩, offerEdge 5, [], 4, by decide⟩

theorem witness_run : ∃ (k : Nat) (s t : State), s.phase = .ready ∧ (∀ e ∈ s.script, e.rstN = true) ∧ runSteps k s = .next t ∧
    acceptedIn k s = [0x1061000000000005] ∧ t.responses = [0] :=
  ⟨2, { core64 with script := [loadEdge, ⟨true, false, 0, true, false⟩] }, _, rfl, by decide, rfl, by decide +kernel, rfl⟩

theorem witness_inv_step : ∃ s t : State, Inv s ∧ step s = .next t ∧ t.bseq = [true] :=
  ⟨{ tableT2 with script := [offerEdge 0x4062000000000000] }, _, { tableT2_inv with }, rfl, rfl⟩

/-- Each piece of state is written by some command that the access summary lists for it. -/
theorem witness_exec_writes : ∃ t₁ t₂ t₃ t₄ t₅ t₆ : State,
    (exec .clearWeights weightsT2 = .next t₁ ∧ t₁.w ≠ weightsT2.w) ∧
    (exec .build weightsT2 = .next t₂ ∧ t₂.node ≠ weightsT2.node) ∧
    (exec .genTable treeT1 = .next t₃ ∧ t₃.tableValid ≠ treeT1.tableValid) ∧
    (exec (.encode 0x62) tableT2 = .next t₄ ∧ t₄.bseq ≠ tableT2.bseq) ∧
    (exec (.bseqAddBit 1) full64 = .next t₅ ∧ t₅.bseqTaint ≠ full64.bseqTaint) ∧
    (exec .genTable core64 = .next t₆ ∧ t₆.errCode ≠ core64.errCode) :=
  ⟨_, _, _, _, _, _, ⟨rfl, by decide +kernel⟩, ⟨rfl, by decide +kernel⟩, ⟨rfl, by decide +kernel⟩, ⟨rfl, by decide +kernel⟩,
    ⟨rfl, by decide +kernel⟩, ⟨rfl, by decide +kernel⟩⟩

/-- One word for each format whose reserved field is not 0 (the second clause of ZFormat, SFormat, SIFormat, IFormat), and the
first IMM out of each static range (their third clause). -/
theorem witness_formats :
    ((0x1200000000000001 : CmdWord).extractLsb' 56 8 = 0x12 ∧ (0x1200000000000001 : CmdWord).extractLsb' 0 56 ≠ 0) ∧
    ((0x4061800000000000 : CmdWord).extractLsb' 56 8 = 0x40 ∧ (0x4061800000000000 : CmdWord).extractLsb' 0 48 ≠ 0) ∧
    ((0x1061000100000005 : CmdWord).extractLsb' 56 8 = 0x10 ∧ (0x1061000100000005 : CmdWord).extractLsb' 32 16 ≠ 0) ∧
    ((0x5180000000000001 : CmdWord).extractLsb' 56 8 = 0x51 ∧ (0x5180000000000001 : CmdWord).extractLsb' 32 24 ≠ 0) ∧
    ((7 : Data).toNat ≤ 7 ∧ ¬ (8 : Data).toNat ≤ 7) ∧ ((1 : Data).toNat ≤ 1 ∧ ¬ (2 : Data).toNat ≤ 1) ∧
    ((510 : Data).toNat ≤ 510 ∧ ¬ (511 : Data).toNat ≤ 510) ∧
    ((1 : Data).toNat ≤ core64.bseqCap.bits / 32 - 1 ∧ ¬ (2 : Data).toNat ≤ core64.bseqCap.bits / 32 - 1) := by
  decide

theorem witness_reads : ∃ (s t : State) (rsp : RspWord), exec (.readNode 9) s = .next t ∧ t.phase = .working rsp ∧
    rcField rsp ≠ 0 :=
  ⟨core64, _, 0x0600000000000000, rfl, by decide, by decide⟩

theorem witness_reads_ok : ∃ (s t : State) (rsp : RspWord), exec .readBseqLen s = .next t ∧ t.phase = .working rsp ∧
    rcField rsp = 0 :=
  ⟨core64, _, 0, rfl, by decide, by decide⟩

theorem witness_load_table : ([((0x62 : Sym), (7 : Weight)), (0x61, 3)].map Prod.fst).Nodup := by decide

theorem witness_build_empty : ∀ sym, core64.w.get sym = 0 := get_zero

theorem witness_build : ∃ sym, weightsT2.w.get sym ≠ 0 := ⟨0x61, by decide⟩

theorem witness_build_next : ∃ t, exec .build weightsT1 = .next t ∧ t.node[5]? = some (.internal 4 2) :=
  ⟨_, rfl, by decide +kernel⟩

theorem witness_working_set : (mergeLoop 1 (initialForest (sortedLeaves weightsT1.w))).ws =
    [⟨2, 4⟩, ⟨2, 2⟩, ⟨5, 3⟩] := by
  decide +kernel

theorem witness_equal_weights : ∃ s t s' t' : State, s.w = s'.w ∧ s ≠ s' ∧ runCommands [.build, .genTable] s = .next t ∧
    runCommands [.build, .genTable] s' = .next t' :=
  ⟨weightsT2, _, full64, _, rfl, by decide +kernel, rfl, rfl⟩

theorem witness_read_node : tableT2.nodeCount.toNat ≤ (3 : Data).toNat ∧
    ((1 : Data).toNat < tableT2.nodeCount.toNat ∧ tableT2.node[(1 : Data).toNat]? = some (.leaf 0x62)) ∧
    (2 : Data).toNat < tableT2.nodeCount.toNat ∧ tableT2.node[(2 : Data).toNat]? = some (.internal 0 1) := by
  decide

theorem witness_gen_table : core64.treeValid = false ∧ (∃ s, Inv s ∧ s.treeValid = true) ∧
    ¬ ∃ q, IsCode tableT2.node tableT2.root 0x63 q :=
  ⟨rfl, ⟨tableT2, tableT2_inv, rfl⟩, fun ⟨q, h⟩ => by
    rcases (tableT2_isCode _ _).1 h with ⟨h', _⟩ | ⟨h', _⟩ <;> exact absurd h' (by decide)⟩

theorem witness_inv : ∃ s, Inv s := ⟨full64, full64_inv⟩

theorem witness_prefix_free : ∃ (s : State) (x y : Sym), Inv s ∧ s.tableValid = true ∧ x ≠ y ∧
    (s.lt.get x).valid = true ∧ (s.lt.get y).valid = true :=
  ⟨tableT2, 0x61, 0x62, tableT2_inv, rfl, by decide, by decide, by decide⟩

theorem witness_single_symbol : weightsT4.w.get 0x78 ≠ 0 ∧ ∀ y, y ≠ 0x78#8 → weightsT4.w.get y = 0 :=
  ⟨by decide, fun y h => by simp [weightsT4, get_set, h]⟩

theorem witness_codes_of_weighted : ∃ (s t : State) (is : List Instr), (∀ i ∈ is, i ≠ .build ∧ i ≠ .softReset) ∧
    runCommands (.build :: is) s = .next t ∧ t.tableValid = true ∧ (s.w.get 0x62).toNat < (s.w.get 0x61).toNat ∧
    (t.lt.get 0x61).valid = true ∧ (t.lt.get 0x62).valid = true :=
  ⟨weightsT1, _, [.genTable, .loadWeight 0x65 7], by decide, rfl, by decide +kernel⟩

theorem witness_append : Inv full64 ∧ ([] : Bits).length ≤ 255 ∧
    full64.bseq.length + ([] : Bits).length ≤ full64.bseqCap.bits ∧
    full64.bseqCap.bits < full64.bseq.length + [true].length :=
  ⟨full64_inv, by decide⟩

theorem witness_add_bit : tableT2.bseqLen.toNat < tableT2.bseqCap.bits ∧ full64.bseqCap.bits ≤ full64.bseqLen.toNat := by
  decide

theorem witness_append_bits : (32 : BitVec 8).toNat ≤ 32 ∧ 32 < (33 : BitVec 8).toNat ∧
    (0x5203000100000006 : CmdWord).extractLsb' 56 8 = 0x52 ∧ (0x5203000100000006 : CmdWord).extractLsb' 32 16 ≠ 0 ∧
    tableT2.bseqLen.toNat + (32 : BitVec 8).toNat ≤ tableT2.bseqCap.bits ∧
    full64.bseqCap.bits < full64.bseqLen.toNat + (1 : BitVec 8).toNat := by
  decide

theorem witness_append_groups : ∃ (s t u : State) (n : BitVec 8) (imm : Data), Inv s ∧ s.bseqTaint = false ∧ n.toNat ≤ 32 ∧
    runCommands [.bseqAppendBits n imm] s = .next t ∧ t.bseqTaint = false ∧
    runCommands ((List.range n.toNat).map fun j => .bseqAddBit (if imm.getLsbD j then 1 else 0)) s = .next u :=
  ⟨tableT2, _, _, 2, 1, tableT2_inv, rfl, by decide, rfl, by decide +kernel, rfl⟩

theorem witness_append_str : ∃ s t : State, Inv s ∧ s.bseqTaint = false ∧
    runCommands (bseqAppendStr (List.replicate 33 true)) s = .next t ∧ t.bseqTaint = false ∧ t.bseq.length = 33 :=
  ⟨tableT2, _, tableT2_inv, rfl, rfl, by decide +kernel, by decide +kernel⟩

theorem witness_encode : (tableT2.lt.get 0x63).valid = false ∧
    (tableT2.lt.get 0x61 = ⟨true, [false]⟩ ∧ tableT2.bseq.length + 1 ≤ tableT2.bseqCap.bits) ∧
    full64.lt.get 0x62 = ⟨true, [true]⟩ ∧ full64.bseqCap.bits < full64.bseq.length + 1 := by
  decide

theorem witness_encoded_text : Inv tableT2 ∧ (∀ sym ∈ [(0x61 : Sym), 0x62], (tableT2.lt.get sym).valid = true) ∧
    ([(0x61 : Sym), 0x62].map fun sym => (tableT2.lt.get sym).code.length).sum ≤ tableT2.bseqCap.bits :=
  ⟨tableT2_inv, by decide⟩

theorem witness_missing_symbol : ∃ (s t : State) (before after : List Sym) (x : Sym), Inv s ∧ s.errCode = 0 ∧
    (∀ sym ∈ before, (s.lt.get sym).valid = true) ∧ (s.lt.get x).valid = false ∧
    ((before ++ x :: after).map fun sym => (s.lt.get sym).code.length).sum ≤ s.bseqCap.bits ∧
    runCommands (.bseqClear :: encodeStr (before ++ x :: after)) s = .next t :=
  ⟨tableT2, _, [0x61, 0x62], [0x61], 0x63, tableT2_inv, rfl, by decide, by decide, by decide, rfl⟩

theorem witness_round_trip : ∃ (s t : State) (text : List Sym), (∀ sym, (s.w.get sym).toNat = text.count sym) ∧
    runCommands ([.build, .genTable, .bseqClear] ++ encodeStr text) s = .next t ∧ t.bseqTaint = false ∧
    ∃ x ∈ text, ∃ y ∈ text, x ≠ y := by
  refine ⟨weightsT2, _, [0x62, 0x61], fun sym => ?_, rfl, by decide +kernel, by decide⟩
  by_cases h2 : sym = 0x62#8
  · subst h2; decide
  · by_cases h1 : sym = 0x61#8
    · subst h1; decide
    · have h1' : ¬ 0x61#8 = sym := fun h => h1 h.symm
      have h2' : ¬ 0x62#8 = sym := fun h => h2 h.symm
      simp [weightsT2, get_set, h1, h2, h1', h2']

theorem witness_round_trip_one : ∃ (s t : State) (text : List Sym), (∀ sym, (s.w.get sym).toNat = text.count sym) ∧
    runCommands ([.build, .genTable, .bseqClear] ++ encodeStr text) s = .next t ∧ t.bseqTaint = false ∧
    ∃ x ∈ text, ∀ y ∈ text, y = x := by
  refine ⟨{ core64 with w := WeightTable.zero.set 0x78 4 }, _, [0x78, 0x78, 0x78, 0x78], fun sym => ?_, rfl,
    by decide +kernel, by decide⟩
  by_cases h : sym = 0x78#8
  · subst h; decide
  · have h' : ¬ 0x78#8 = sym := fun e => h e.symm
    simp [get_set, h, h']

theorem witness_encode_gap : ∃ (t : State) (is : List Instr), (∀ i ∈ is, i ≠ .genTable) ∧
    runCommands (.build :: is) tableT2 = .next t :=
  ⟨_, [.nop, .loadWeight 0x61 9], by decide, rfl⟩

theorem witness_failures : ∃ t₁ t₂ t₄ t₅ t₆ : State,
    (acceptWord 0x2000000000000000 core64 = .next t₁ ∧ t₁.phase = .working 0x0100000000000000) ∧
    (acceptWord 0x4063000000000000 tableT2 = .next t₂ ∧ t₂.phase = .working 0x0200000000000063) ∧
    (acceptWord 0x5100000000000001 full64 = .next t₄ ∧ t₄.phase = .working 0x0400000000000000) ∧
    (acceptWord 0x0500000000000000 core64 = .next t₅ ∧ t₅.phase = .working 0x0500000000000001) ∧
    (acceptWord 0x3000000000000000 core64 = .next t₆ ∧ t₆.phase = .working 0x0600000000000000) :=
  ⟨_, _, _, _, _, ⟨rfl, by decide +kernel⟩, ⟨rfl, by decide +kernel⟩, ⟨rfl, by decide +kernel⟩, ⟨rfl, by decide +kernel⟩,
    ⟨rfl, by decide +kernel⟩⟩

theorem witness_taint : ∃ s t : State, s.bseqTaint = true ∧ exec .clearError s = .next t :=
  ⟨{ core64 with bseqTaint := true }, _, rfl, rfl⟩

end Sys2Proof.Tests
end

/-! PROOF. Paths in the node arena and what R37(b) says of them: each node has one parent, so one path from the root. -/

namespace Sys2Proof.Proofs

open Sys2Proof.Machine Sys2Proof.Safety Sys2Proof.Laws

/-! ### Paths and their branches (R130) -/

/-- Branch `b` (false = LEFT, true = RIGHT) of the internal node `k` leads to node `j`. -/
def IsChild (node : List Node) (k : NodeIdx) (b : Bool) (j : NodeIdx) : Prop :=
  ∃ l r, node[k.toNat]? = some (.internal l r) ∧ j = if b then r else l

/-- Both children of an internal node have smaller indices (R115(a)). -/
def ChildrenBelow (node : List Node) : Prop :=
  ∀ (i : Nat) (l r : NodeIdx), node[i]? = some (.internal l r) → l.toNat < i ∧ r.toNat < i

theorem path_nil_iff {node : List Node} {i j : NodeIdx} : Path node i [] j ↔ j = i :=
  ⟨fun h => by cases h; rfl, fun h => h ▸ .here _⟩

theorem path_cons_iff {node : List Node} {i j : NodeIdx} {b : Bool} {c : Bits} :
    Path node i (b :: c) j ↔ ∃ m, IsChild node i b m ∧ Path node m c j := by
  constructor
  · intro h
    cases h with
    | left he hp => exact ⟨_, ⟨_, _, he, rfl⟩, hp⟩
    | right he hp => exact ⟨_, ⟨_, _, he, rfl⟩, hp⟩
  · rintro ⟨_, ⟨l, r, he, rfl⟩, hp⟩
    cases b with
    | false => exact .left he hp
    | true => exact .right he hp

theorem path_append_iff {node : List Node} {i j : NodeIdx} {c d : Bits} :
    Path node i (c ++ d) j ↔ ∃ m, Path node i c m ∧ Path node m d j := by
  induction c generalizing i with
  | nil => simp [path_nil_iff]
  | cons b c ih =>
    simp only [List.cons_append, path_cons_iff, ih]
    exact ⟨fun ⟨k, hk, m, hm, hj⟩ => ⟨m, ⟨k, hk, hm⟩, hj⟩, fun ⟨m, ⟨k, hk, hm⟩, hj⟩ => ⟨k, hk, m, hm, hj⟩⟩

/-- A path seen from its end: its last branch leads from the node before to `j`. -/
theorem path_snoc_iff {node : List Node} {i j : NodeIdx} {b : Bool} {c : Bits} :
    Path node i (c ++ [b]) j ↔ ∃ m, Path node i c m ∧ IsChild node m b j := by
  simp [path_append_iff, path_cons_iff, path_nil_iff]

/-- Indices fall by at least one at every branch, so a path is no longer than its start's index (R115(a)). -/
theorem path_length_le {node : List Node} {i j : NodeIdx} {c : Bits}
    (below : ChildrenBelow node) (h : Path node i c j) : c.length + j.toNat ≤ i.toNat := by
  induction h with
  | here i => simp
  | left he _ ih => have := (below _ _ _ he).1; simp only [List.length_cons]; omega
  | right he _ ih => have := (below _ _ _ he).2; simp only [List.length_cons]; omega

/-! ### Child fields (R115(b)) -/

theorem childSlots_cons (e : Node) (node : List Node) (c : Nat) :
    childSlots (e :: node) c = slotsOf c e + childSlots node c := by
  simp [childSlots]

theorem childSlots_append (node rest : List Node) (c : Nat) :
    childSlots (node ++ rest) c = childSlots node c + childSlots rest c := by
  simp [childSlots]

theorem slotsOf_le_childSlots {node : List Node} {k : Nat} {e : Node} (c : Nat) (h : node[k]? = some e) :
    slotsOf c e ≤ childSlots node c :=
  List.le_sum_of_mem (List.mem_map_of_mem (List.mem_of_getElem? h))

theorem slotsOf_add_slotsOf_le_childSlots {node : List Node} {k k' : Nat} {e e' : Node} (c : Nat) (hlt : k < k')
    (h : node[k]? = some e) (h' : node[k']? = some e') : slotsOf c e + slotsOf c e' ≤ childSlots node c := by
  induction node generalizing k k' with
  | nil => cases h
  | cons x node ih =>
    cases k' with
    | zero => omega
    | succ k' =>
      rw [childSlots_cons]
      cases k with
      | zero =>
        obtain rfl : x = e := Option.some.inj h
        exact Nat.add_le_add_left (slotsOf_le_childSlots c (node := node) h') _
      | succ k => exact Nat.le_add_left_of_le (ih (Nat.lt_of_succ_lt_succ hlt) h h')

/-- A node that a child field names is the child of some internal node. -/
theorem exists_isChild_of_childSlots {node : List Node} {j : NodeIdx} (hb : node.length ≤ 512)
    (h : childSlots node j.toNat ≠ 0) : ∃ k b, IsChild node k b j := by
  have ⟨n, hn, hne⟩ : ∃ n ∈ node.map (slotsOf j.toNat), n ≠ 0 := by
    simpa [childSlots, List.sum_eq_zero_iff] using h
  obtain ⟨e, he, rfl⟩ := List.mem_map.1 hn
  obtain ⟨k, hk, he⟩ := List.mem_iff_getElem.1 he
  have hk' : node[(BitVec.ofNat 9 k).toNat]? = some e := by
    rw [BitVec.toNat_ofNat, Nat.mod_eq_of_lt (by omega), List.getElem?_eq_getElem hk, he]
  cases e with
  | leaf sym => exact absurd rfl hne
  | internal l r =>
    by_cases hl : l.toNat = j.toNat
    · exact ⟨_, false, l, r, hk', (BitVec.eq_of_toNat_eq hl).symm⟩
    · by_cases hr : r.toNat = j.toNat
      · exact ⟨_, true, l, r, hk', (BitVec.eq_of_toNat_eq hr).symm⟩
      · exact absurd (by simp [slotsOf, hl, hr]) hne

theorem childSlots_eq_zero_of_length_le {node : List Node} {c : Nat} (below : ChildrenBelow node)
    (h : node.length ≤ c + 1) : childSlots node c = 0 := by
  simp only [childSlots, List.sum_eq_zero_iff, List.mem_map, forall_exists_index, and_imp]
  rintro _ e he rfl
  obtain ⟨k, hk, rfl⟩ := List.mem_iff_getElem.1 he
  cases hek : node[k] with
  | leaf sym => rfl
  | internal l r =>
    have ⟨hl, hr⟩ := below k l r (by rw [List.getElem?_eq_getElem hk, hek])
    simp [slotsOf, show l.toNat ≠ c by omega, show r.toNat ≠ c by omega]

/-! ### Leaves -/

@[simp] theorem leafSymbols_append (node rest : List Node) :
    leafSymbols (node ++ rest) = leafSymbols node ++ leafSymbols rest := by
  simp [leafSymbols]

@[simp] theorem leafSymbols_map_leaf (syms : List Sym) : leafSymbols (syms.map .leaf) = syms := by
  simp [leafSymbols, List.filterMap_map]

theorem leaf_unique {node : List Node} {sym : Sym} {i j : Nat} (hd : (leafSymbols node).Nodup)
    (hi : node[i]? = some (.leaf sym)) (hj : node[j]? = some (.leaf sym)) : i = j := by
  have key : ∀ {i j : Nat}, i < j → node[i]? = some (.leaf sym) → node[j]? ≠ some (.leaf sym) := by
    intro i j hij hi hj
    obtain ⟨hi, ei⟩ := List.getElem?_eq_some_iff.1 hi
    obtain ⟨hj, ej⟩ := List.getElem?_eq_some_iff.1 hj
    have hp := List.pairwise_iff_getElem.1 (List.pairwise_filterMap.1 hd) i j hi hj hij
    rw [ei, ej] at hp
    exact hp sym rfl sym rfl rfl
  rcases Nat.lt_trichotomy i j with h | h | h
  · exact absurd hj (key h hi)
  · exact h
  · exact absurd hi (key h hj)

/-! ### Trees (R37(b)) -/

theorem childSlots_le_one {node : List Node} {root : NodeIdx} (ht : IsTree node root) (c : Nat) :
    childSlots node c ≤ 1 := by
  by_cases hc : c < node.length
  · rw [ht.oneParent c hc]
    split <;> decide
  · rw [childSlots_eq_zero_of_length_le ht.childrenBelow (by omega)]
    decide

/-- A child's parent has a child field that names it. -/
theorem IsChild.slot {node : List Node} {k j : NodeIdx} {b : Bool} (h : IsChild node k b j) :
    ∃ e, node[k.toNat]? = some e ∧ 1 ≤ slotsOf j.toNat e := by
  obtain ⟨l, r, he, rfl⟩ := h
  exact ⟨_, he, by cases b <;> simp [slotsOf]⟩

/-- A node has one parent and hangs on one branch of it (R115(b)). -/
theorem isChild_unique {node : List Node} {root j k k' : NodeIdx} {b b' : Bool} (ht : IsTree node root)
    (h : IsChild node k b j) (h' : IsChild node k' b' j) : k = k' ∧ b = b' := by
  have hone := childSlots_le_one ht j.toNat
  have not_lt : ∀ {k k' : NodeIdx} {b b' : Bool}, IsChild node k b j → IsChild node k' b' j → ¬ k.toNat < k'.toNat := by
    intro k k' b b' h h' hlt
    obtain ⟨e, he, hs⟩ := h.slot
    obtain ⟨e', he', hs'⟩ := h'.slot
    have := slotsOf_add_slotsOf_le_childSlots j.toNat hlt he he'
    omega
  obtain rfl : k = k' :=
    BitVec.eq_of_toNat_eq (Nat.le_antisymm (Nat.le_of_not_lt (not_lt h' h)) (Nat.le_of_not_lt (not_lt h h')))
  refine ⟨rfl, ?_⟩
  obtain ⟨l, r, he, hj⟩ := h
  obtain ⟨l', r', he', hj'⟩ := h'
  cases he.symm.trans he'
  by_contra hne
  obtain ⟨rfl, rfl⟩ : l = j ∧ r = j := by
    cases b <;> cases b' <;> simp_all
  have htwo : slotsOf r.toNat (.internal r r) = 2 := by simp [slotsOf]
  have hs := slotsOf_le_childSlots r.toNat he
  omega

theorem root_not_isChild {node : List Node} {root k : NodeIdx} {b : Bool} (ht : IsTree node root) :
    ¬ IsChild node k b root := by
  intro h
  obtain ⟨e, he, hs⟩ := h.slot
  have hle := slotsOf_le_childSlots root.toNat he
  have hzero := ht.oneParent root.toNat (by have := ht.rootLast; omega)
  rw [if_pos rfl] at hzero
  omega

/-- No branch leads back to the root. -/
theorem path_to_root {node : List Node} {root i : NodeIdx} {c : Bits} (ht : IsTree node root)
    (h : Path node i c root) : c = [] := by
  rcases List.eq_nil_or_concat' c with rfl | ⟨c, b, rfl⟩
  · rfl
  · obtain ⟨_, _, hb⟩ := path_snoc_iff.1 h
    exact absurd hb (root_not_isChild ht)

/-- From the root, one path leads to each node. -/
theorem path_unique {node : List Node} {root j : NodeIdx} {c c' : Bits} (ht : IsTree node root)
    (h : Path node root c j) (h' : Path node root c' j) : c = c' := by
  induction c using List.reverseRecOn generalizing c' j with
  | nil =>
    obtain rfl := path_nil_iff.1 h
    exact (path_to_root ht h').symm
  | append_singleton c b ih =>
    rcases List.eq_nil_or_concat' c' with rfl | ⟨c', b', rfl⟩
    · obtain rfl := path_nil_iff.1 h'
      exact path_to_root ht h
    · obtain ⟨k, hk, hb⟩ := path_snoc_iff.1 h
      obtain ⟨k', hk', hb'⟩ := path_snoc_iff.1 h'
      obtain ⟨rfl, rfl⟩ := isChild_unique ht hb hb'
      rw [ih hk hk']

/-- When every node but the last has a parent above it, every node is reachable from the last (R115(d)). -/
theorem reachable_of_oneParent {node : List Node} {root : NodeIdx} (hb : node.length ≤ 512)
    (hroot : root.toNat + 1 = node.length) (below : ChildrenBelow node)
    (parent : ∀ c : Nat, c < node.length → childSlots node c = if c = root.toNat then 0 else 1)
    (i : NodeIdx) (hi : i.toNat < node.length) : ∃ c, Path node root c i := by
  by_cases hir : i = root
  · exact ⟨[], hir ▸ .here _⟩
  · have hne : childSlots node i.toNat ≠ 0 := by
      rw [parent i.toNat hi, if_neg (mt BitVec.eq_of_toNat_eq hir)]
      decide
    obtain ⟨k, b, hk⟩ := exists_isChild_of_childSlots hb hne
    have ⟨hlt, hlen⟩ : i.toNat < k.toNat ∧ k.toNat < node.length := by
      obtain ⟨l, r, he, rfl⟩ := hk
      have := below _ _ _ he
      exact ⟨by cases b <;> simp [this], (List.getElem?_eq_some_iff.1 he).1⟩
    obtain ⟨c, hc⟩ := reachable_of_oneParent hb hroot below parent k hlen
    exact ⟨c ++ [b], path_snoc_iff.2 ⟨k, hc, hk⟩⟩
termination_by node.length - i.toNat

theorem isCode_unique {node : List Node} {root : NodeIdx} {sym : Sym} {c c' : Bits} (ht : IsTree node root)
    (h : IsCode node root sym c) (h' : IsCode node root sym c') : c = c' := by
  obtain ⟨i, hp, hi⟩ := h
  obtain ⟨j, hp', hj⟩ := h'
  obtain rfl : i = j := BitVec.eq_of_toNat_eq (leaf_unique ht.distinctLeaves hi hj)
  exact path_unique ht hp hp'

end Sys2Proof.Proofs

/-! PROOF. GEN_TABLE's traversal records exactly the codes of the tree (43_code_table.md R130). -/

namespace Sys2Proof.Proofs

open Sys2Proof.Machine Sys2Proof.Safety Sys2Proof.Laws

/-! ### Codes, branch by branch -/

theorem isCode_nil_iff {node : List Node} {i : NodeIdx} {sym : Sym} :
    IsCode node i sym [] ↔ node[i.toNat]? = some (.leaf sym) := by
  simp [IsCode, path_nil_iff]

theorem exists_internal_of_isCode_cons {node : List Node} {i : NodeIdx} {sym : Sym} {b : Bool} {c : Bits}
    (h : IsCode node i sym (b :: c)) : ∃ l r, node[i.toNat]? = some (.internal l r) := by
  obtain ⟨j, hp, _⟩ := h
  obtain ⟨_, ⟨l, r, he, _⟩, _⟩ := path_cons_iff.1 hp
  exact ⟨l, r, he⟩

theorem isCode_cons_iff {node : List Node} {i l r : NodeIdx} {sym : Sym} {b : Bool} {c : Bits}
    (h : node[i.toNat]? = some (.internal l r)) :
    IsCode node i sym (b :: c) ↔ IsCode node (if b then r else l) sym c := by
  constructor
  · rintro ⟨j, hp, hj⟩
    obtain ⟨_, ⟨l', r', he, rfl⟩, hp⟩ := path_cons_iff.1 hp
    cases h.symm.trans he
    exact ⟨j, hp, hj⟩
  · rintro ⟨j, hp, hj⟩
    exact ⟨j, path_cons_iff.2 ⟨_, ⟨l, r, h, rfl⟩, hp⟩, hj⟩

/-! ### The traversal, by the entry it visits -/

theorem visit_none {node : List Node} {i : NodeIdx} (depth : Nat) (p : Bits) (lt : LookupTable)
    (h : node[i.toNat]? = none) : visit node (depth + 1) i p lt = lt := by
  simp [visit, h]

theorem visit_leaf {node : List Node} {i : NodeIdx} {sym : Sym} (depth : Nat) (p : Bits) (lt : LookupTable)
    (h : node[i.toNat]? = some (.leaf sym)) : visit node (depth + 1) i p lt = lt.set sym ⟨true, p⟩ := by
  simp [visit, h]

theorem visit_internal {node : List Node} {i l r : NodeIdx} (depth : Nat) (p : Bits) (lt : LookupTable)
    (h : node[i.toNat]? = some (.internal l r)) : visit node (depth + 1) i p lt =
      visit node depth r (p ++ [true]) (visit node depth l (p ++ [false]) lt) := by
  simp [visit, h]

/-- The traversal below node `i` leaves an entry as it was, or writes a code of its symbol behind the bits of `i`. -/
theorem visit_get (node : List Node) (depth : Nat) (i : NodeIdx) (p : Bits) (lt : LookupTable) (sym : Sym) :
    (visit node depth i p lt).get sym = lt.get sym ∨
      ∃ c, IsCode node i sym c ∧ (visit node depth i p lt).get sym = ⟨true, p ++ c⟩ := by
  induction depth generalizing i p lt with
  | zero => exact .inl rfl
  | succ depth ih =>
    match he : node[i.toNat]? with
    | none => exact .inl (by rw [visit_none depth p lt he])
    | some (.leaf x) =>
      rw [visit_leaf depth p lt he]
      by_cases hs : sym = x
      · subst hs
        exact .inr ⟨[], isCode_nil_iff.2 he, by simp⟩
      · exact .inl (get_set_ne lt _ hs)
    | some (.internal l r) =>
      rw [visit_internal depth p lt he]
      rcases ih r (p ++ [true]) (visit node depth l (p ++ [false]) lt) with hr | ⟨c, hc, hr⟩
      · rcases ih l (p ++ [false]) lt with hl | ⟨c, hc, hl⟩
        · exact .inl (hr.trans hl)
        · exact .inr ⟨false :: c, (isCode_cons_iff he).2 hc, by simpa using hr.trans hl⟩
      · exact .inr ⟨true :: c, (isCode_cons_iff he).2 hc, by simpa using hr⟩

/-- A traversal deeper than a code of the symbol below node `i` writes the symbol's entry. -/
theorem visit_get_of_isCode {node : List Node} {depth : Nat} {i : NodeIdx} {sym : Sym} {c : Bits} (p : Bits)
    (lt : LookupTable) (hc : IsCode node i sym c) (hd : c.length < depth) :
    ∃ c', IsCode node i sym c' ∧ (visit node depth i p lt).get sym = ⟨true, p ++ c'⟩ := by
  induction depth generalizing i c p lt with
  | zero => omega
  | succ depth ih =>
    cases c with
    | nil => exact ⟨[], hc, by simp [visit_leaf depth p lt (isCode_nil_iff.1 hc)]⟩
    | cons b c =>
      obtain ⟨l, r, he⟩ := exists_internal_of_isCode_cons hc
      have hcd : c.length < depth := Nat.lt_of_succ_lt_succ hd
      rw [isCode_cons_iff he] at hc
      rw [visit_internal depth p lt he]
      cases b with
      | true =>
        obtain ⟨c', hc', hr⟩ := ih (p ++ [true]) (visit node depth l (p ++ [false]) lt) hc hcd
        exact ⟨true :: c', (isCode_cons_iff he).2 hc', by simpa using hr⟩
      | false =>
        obtain ⟨c', hc', hl⟩ := ih (p ++ [false]) lt hc hcd
        rcases visit_get node depth r (p ++ [true]) (visit node depth l (p ++ [false]) lt) sym with hr | ⟨d, hd, hr⟩
        · exact ⟨false :: c', (isCode_cons_iff he).2 hc', by simpa using hr.trans hl⟩
        · exact ⟨true :: d, (isCode_cons_iff he).2 hd, by simpa using hr⟩

/-- An entry of a tree's lookup table is cleared or holds a code of its symbol. -/
theorem tableOf_get (node : List Node) (root : NodeIdx) (sym : Sym) :
    (tableOf node root).get sym = ⟨false, []⟩ ∨
      ∃ c, IsCode node root sym c ∧ (tableOf node root).get sym = ⟨true, c⟩ := by
  simpa [tableOf] using visit_get node node.length root [] LookupTable.cleared sym

/-- GEN_TABLE's table is exactly the tree's codes (R130). -/
theorem tableOf_get_iff {node : List Node} {root : NodeIdx} (ht : IsTree node root) (sym : Sym) (c : Bits) :
    (tableOf node root).get sym = ⟨true, c⟩ ↔ IsCode node root sym c := by
  constructor
  · intro h
    rcases tableOf_get node root sym with h' | ⟨c', hc', h'⟩
    · cases h.symm.trans h'
    · cases h.symm.trans h'
      exact hc'
  · intro hc
    have hlen : c.length < node.length := by
      obtain ⟨j, hp, _⟩ := hc
      have := path_length_le ht.childrenBelow hp
      have := ht.rootLast
      omega
    obtain ⟨c', hc', h⟩ := visit_get_of_isCode [] LookupTable.cleared hc hlen
    rw [isCode_unique ht hc hc']
    exact h

theorem tableOf_get_of_not_valid {node : List Node} {root : NodeIdx} {sym : Sym}
    (h : ((tableOf node root).get sym).valid = false) : (tableOf node root).get sym = ⟨false, []⟩ := by
  rcases tableOf_get node root sym with h' | ⟨c, _, h'⟩
  · exact h'
  · rw [h'] at h
    cases h

end Sys2Proof.Proofs

/-! PROOF. BUILD makes a tree (42_tree_builder.md R110, R113, R115): what every merge keeps, and what is left of it when one
entry remains in the working set. -/

namespace Sys2Proof.Proofs

open Sys2Proof.Machine Sys2Proof.Safety Sys2Proof.Laws

/-! ### The working set (R35) -/

/-- The model's insertion is the library's, under the order of the weights. -/
theorem insertWs_eq_orderedInsert (e : WsEntry) (ws : List WsEntry) :
    insertWs e ws = ws.orderedInsert (fun a b => a.wt.toNat ≤ b.wt.toNat) e := by
  induction ws with
  | nil => rfl
  | cons x ws ih => simp only [insertWs, List.orderedInsert, ih]

theorem insertWs_perm (e : WsEntry) (ws : List WsEntry) : (insertWs e ws).Perm (e :: ws) := by
  rw [insertWs_eq_orderedInsert]
  exact List.perm_orderedInsert _ e ws

/-- The arena indices of a working set. -/
def wsNodes (ws : List WsEntry) : List Nat := ws.map fun e => e.nd.toNat

theorem mergeStep_leafSymbols (f : Forest) : leafSymbols (mergeStep f).node = leafSymbols f.node := by
  unfold mergeStep
  split
  · simp [leafSymbols]
  · rfl

/-! ### The leaves (R110 step 1) -/

theorem allSymbols_nodup : allSymbols.Nodup := by decide +kernel

theorem sortedLeaves_perm (w : WeightTable) :
    (sortedLeaves w).Perm ((w.entries.zip allSymbols).filter fun p => p.1 != 0) :=
  List.perm_insertionSort _ _

theorem sortedLeaves_symbols_nodup (w : WeightTable) : ((sortedLeaves w).map Prod.snd).Nodup := by
  have hzip : (w.entries.zip allSymbols).map Prod.snd = allSymbols :=
    List.map_snd_zip (by simp [allSymbols, w.size])
  rw [((sortedLeaves_perm w).map Prod.snd).nodup_iff]
  exact (hzip ▸ allSymbols_nodup).sublist (List.filter_sublist.map _)

theorem length_le_of_nodup {syms : List Sym} (h : syms.Nodup) : syms.length ≤ 256 := by
  simpa using (h.map BitVec.toFin_injective).length_le_card

/-! ### What every merge keeps -/

/-- BUILD under way, before and after any pass of its loop (R112, R113, R115): every node is named once, by a child field or
by the working set. -/
structure ForestInv (f : Forest) : Prop where
  count : f.count.toNat = f.node.length
  leaves : f.node.length + f.ws.length = 2 * (leafSymbols f.node).length
  distinct : (leafSymbols f.node).Nodup
  childrenBelow : ChildrenBelow f.node
  inArena : ∀ i ∈ wsNodes f.ws, i < f.node.length
  onePlace : ∀ c, c < f.node.length → childSlots f.node c + (wsNodes f.ws).count c = 1

theorem wsNodes_initialForest {leaves : List (Weight × Sym)} (h : leaves.length ≤ 256) :
    wsNodes (initialForest leaves).ws = List.range leaves.length := by
  refine List.ext_getElem (by simp [wsNodes, initialForest]) fun i hi _ => ?_
  have hi : i < leaves.length := by simpa [wsNodes, initialForest] using hi
  have hmod : i % 512 = i := Nat.mod_eq_of_lt (by omega)
  simp [wsNodes, initialForest, hmod]

theorem childSlots_map_leaf (syms : List Sym) (c : Nat) : childSlots (syms.map .leaf) c = 0 := by
  simp [childSlots, slotsOf, Function.comp_def]

theorem forestInv_initialForest {leaves : List (Weight × Sym)} (hd : (leaves.map Prod.snd).Nodup) :
    ForestInv (initialForest leaves) := by
  have hlen : leaves.length ≤ 256 := by simpa using length_le_of_nodup hd
  have hnode : (initialForest leaves).node = (leaves.map Prod.snd).map .leaf := by simp [initialForest]
  have hws := wsNodes_initialForest hlen
  have hnl : (initialForest leaves).node.length = leaves.length := by simp [initialForest]
  refine ⟨?_, ?_, ?_, ?_, ?_, ?_⟩
  · rw [hnl]
    exact Nat.mod_eq_of_lt (show leaves.length < 1024 by omega)
  · rw [hnode, leafSymbols_map_leaf]
    simp [initialForest, two_mul]
  · rw [hnode, leafSymbols_map_leaf]
    exact hd
  · intro i l r h
    simp [hnode] at h
  · rw [hws, hnl]
    exact fun i => List.mem_range.1
  · intro c hc
    rw [hnl] at hc
    rw [hws, hnode, childSlots_map_leaf, List.count_eq_one_of_mem List.nodup_range (List.mem_range.2 hc)]

theorem ForestInv.length_le {f : Forest} (h : ForestInv f) : f.node.length + f.ws.length ≤ 512 := by
  have := h.leaves
  have := length_le_of_nodup h.distinct
  omega

theorem ChildrenBelow.snoc {node : List Node} {l r : NodeIdx} (h : ChildrenBelow node) (hl : l.toNat < node.length)
    (hr : r.toNat < node.length) : ChildrenBelow (node ++ [.internal l r]) := by
  intro i a b hi
  rcases Nat.lt_or_ge i node.length with hlt | hge
  · rw [List.getElem?_append_left hlt] at hi
    exact h i a b hi
  · rw [List.getElem?_append_right hge] at hi
    obtain ⟨_, hab⟩ := List.getElem?_eq_some_iff.1 hi
    rw [List.getElem_singleton] at hab
    cases hab
    omega

section Merge

variable {f : Forest} {l r : WsEntry} {rest : List WsEntry}

/-- One pass of the merge loop on two entries or more. -/
theorem mergeStep_cons_cons (hf : f.ws = l :: r :: rest) :
    mergeStep f = ⟨insertWs ⟨l.wt + r.wt, f.count.setWidth 9⟩ rest, f.node ++ [.internal l.nd r.nd], f.count + 1⟩ := by
  simp [mergeStep, hf]

theorem inArena_cons_cons (h : ForestInv f) (hf : f.ws = l :: r :: rest) :
    l.nd.toNat < f.node.length ∧ r.nd.toNat < f.node.length ∧ ∀ i ∈ wsNodes rest, i < f.node.length := by
  have hin := h.inArena
  simp only [hf, wsNodes, List.map_cons, List.forall_mem_cons] at hin
  exact hin

/-- The new entry names the new node, NODE_COUNT fitting 9 bits (R113). -/
theorem wsNodes_mergeStep_perm (h : ForestInv f) (hf : f.ws = l :: r :: rest) :
    (wsNodes (mergeStep f).ws).Perm (f.node.length :: wsNodes rest) := by
  have hidx : (f.count.setWidth 9).toNat = f.node.length := by
    have := h.length_le
    simp only [hf, List.length_cons] at this
    rw [BitVec.toNat_setWidth, h.count]
    omega
  rw [mergeStep_cons_cons hf]
  simpa [wsNodes, hidx] using (insertWs_perm ⟨l.wt + r.wt, f.count.setWidth 9⟩ rest).map fun e => e.nd.toNat

/-- A merge moves its two nodes from the working set to child fields, and puts the new node into the working set. -/
theorem onePlace_mergeStep (h : ForestInv f) (hf : f.ws = l :: r :: rest) (c : Nat) (hc : c < f.node.length + 1) :
    childSlots (f.node ++ [.internal l.nd r.nd]) c + (f.node.length :: wsNodes rest).count c = 1 := by
  obtain ⟨hl, hr, hrest⟩ := inArena_cons_cons h hf
  have hnew : childSlots [.internal l.nd r.nd] c =
      (if l.nd.toNat = c then 1 else 0) + if r.nd.toNat = c then 1 else 0 := by simp [childSlots, slotsOf]
  rw [childSlots_append, hnew, List.count_cons]
  rcases Nat.lt_succ_iff_lt_or_eq.1 hc with hlt | rfl
  · have hold := h.onePlace c hlt
    simp only [hf, wsNodes, List.map_cons, List.count_cons, beq_iff_eq] at hold
    simp only [wsNodes, beq_iff_eq, if_neg hlt.ne']
    omega
  · have hold : childSlots f.node f.node.length = 0 :=
      childSlots_eq_zero_of_length_le h.childrenBelow (Nat.le_succ _)
    have hfree : (wsNodes rest).count f.node.length = 0 :=
      List.count_eq_zero.2 fun hm => Nat.lt_irrefl _ (hrest _ hm)
    simp [hold, hfree, hl.ne, hr.ne]

theorem forestInv_mergeStep_cons_cons (h : ForestInv f) (hf : f.ws = l :: r :: rest) : ForestInv (mergeStep f) := by
  have hnode : (mergeStep f).node = f.node ++ [.internal l.nd r.nd] := by rw [mergeStep_cons_cons hf]
  have hlen : (mergeStep f).node.length = f.node.length + 1 := by rw [hnode, List.length_append, List.length_singleton]
  have hperm := wsNodes_mergeStep_perm h hf
  obtain ⟨hl, hr, hrest⟩ := inArena_cons_cons h hf
  refine ⟨?_, ?_, ?_, ?_, ?_, ?_⟩
  · have := h.length_le
    rw [hlen, mergeStep_cons_cons hf, BitVec.toNat_add, h.count]
    exact Nat.mod_eq_of_lt (show f.node.length + 1 < 1024 by omega)
  · have hws := hperm.length_eq
    have := h.leaves
    simp only [wsNodes, hf, List.length_cons, List.length_map] at this hws
    rw [mergeStep_leafSymbols, hlen, hws]
    omega
  · rw [mergeStep_leafSymbols]
    exact h.distinct
  · rw [hnode]
    exact h.childrenBelow.snoc hl hr
  · intro i hi
    rw [hlen]
    rcases List.mem_cons.1 (hperm.mem_iff.1 hi) with rfl | hi
    · exact Nat.lt_succ_self _
    · exact Nat.lt_succ_of_lt (hrest i hi)
  · intro c hc
    rw [hnode, hperm.count_eq]
    exact onePlace_mergeStep h hf c (hlen ▸ hc)

end Merge

theorem forestInv_mergeStep {f : Forest} (h : ForestInv f) : ForestInv (mergeStep f) := by
  match hf : f.ws with
  | [] => simpa [mergeStep, hf] using h
  | [_] => simpa [mergeStep, hf] using h
  | l :: r :: rest => exact forestInv_mergeStep_cons_cons h hf

theorem forestInv_mergeLoop {f : Forest} (n : Nat) (h : ForestInv f) : ForestInv (mergeLoop n f) := by
  induction n generalizing f with
  | zero => exact h
  | succ n ih => exact ih (forestInv_mergeStep h)

/-- Every pass takes one entry from the working set, until one is left. -/
theorem mergeLoop_ws_length {f : Forest} {n : Nat} (h : f.ws.length = n + 1) : (mergeLoop n f).ws.length = 1 := by
  induction n generalizing f with
  | zero => exact h
  | succ n ih =>
    refine ih ?_
    match hf : f.ws, h with
    | l :: r :: rest, h =>
      rw [mergeStep_cons_cons hf, (insertWs_perm _ rest).length_eq]
      simpa using h

/-! ### The tree -/

/-- With one entry left, the arena is a tree with that entry's node as its root (R37(b)). -/
theorem ForestInv.isTree {f : Forest} (h : ForestInv f) (h1 : f.ws.length = 1) : IsTree f.node (rootOf f) := by
  obtain ⟨e, hws⟩ := List.length_eq_one_iff.1 h1
  have hroot : rootOf f = e.nd := by simp [rootOf, hws]
  have hcount := h.leaves
  have hbound := h.length_le
  rw [h1] at hcount hbound
  have place : ∀ c, c < f.node.length → childSlots f.node c = if c = e.nd.toNat then 0 else 1 := by
    intro c hc
    have := h.onePlace c hc
    simp only [hws, wsNodes, List.map_cons, List.map_nil, List.count_singleton, beq_iff_eq] at this
    split_ifs at this ⊢ <;> omega
  have hin : e.nd.toNat < f.node.length := h.inArena _ (by simp [hws, wsNodes])
  have hlast : e.nd.toNat + 1 = f.node.length := by
    have hfree : childSlots f.node (f.node.length - 1) = 0 :=
      childSlots_eq_zero_of_length_le h.childrenBelow (by omega)
    rw [place _ (by omega)] at hfree
    split at hfree
    · omega
    · cases hfree
  rw [hroot]
  exact ⟨hcount, by omega, hlast, h.childrenBelow, place, h.distinct,
    reachable_of_oneParent (by omega) hlast h.childrenBelow place⟩

/-- What BUILD leaves of a weight table with a weighted symbol (R113, R115). -/
theorem buildForest_isTree {w : WeightTable} {f : Forest} (h : buildForest w = some f) :
    IsTree f.node (rootOf f) ∧ f.count.toNat = f.node.length := by
  unfold buildForest at h
  split at h
  next => cases h
  next leaves hne =>
    cases h
    have hinv := forestInv_mergeLoop ((sortedLeaves w).length - 1) (forestInv_initialForest (sortedLeaves_symbols_nodup w))
    have hpos : 0 < (sortedLeaves w).length := List.length_pos_iff.2 hne
    have hws : (initialForest (sortedLeaves w)).ws.length = (sortedLeaves w).length - 1 + 1 := by
      simpa [initialForest] using (Nat.sub_add_cancel hpos).symm
    have hone := mergeLoop_ws_length hws
    exact ⟨hinv.isTree hone, hinv.count⟩

end Sys2Proof.Proofs

/-! PROOF. The invariants of 10_state.md R37: at reset, over every command, and over every step. -/

namespace Sys2Proof.Proofs

open Sys2Proof.Machine Sys2Proof.Safety Sys2Proof.Laws

/-! ### What each shared operation keeps -/

/-- R37 speaks of the storages alone. -/
theorem inv_of_storageOf_eq {s t : State} (h : Inv s) (he : storageOf t = storageOf s) : Inv t := by
  have ht : Inv (storageOf t) := he ▸ { h with }
  exact { ht with }

@[simp] theorem storageOf_raiseResponse (s : State) : storageOf (raiseResponse s) = storageOf s := by
  unfold raiseResponse
  split <;> rfl

theorem inv_resetStorage (s : State) : Inv (resetStorage s) where
  nodeCount := rfl
  noTree _ := ⟨rfl, rfl, rfl⟩
  tree h := by cases h
  table h := by cases h
  noCode sym _ := get_cleared sym
  noTable _ := get_cleared
  length := ⟨rfl, Nat.zero_le _⟩
  error _ := ⟨rfl, rfl, rfl⟩

theorem inv_discardTree {s : State} (h : Inv s) : Inv (discardTree s) :=
  { h with
    nodeCount := rfl
    noTree := fun _ => ⟨rfl, rfl, rfl⟩
    tree := fun ht => by cases ht
    table := fun ht => by cases ht
    noCode := fun sym _ => get_cleared sym
    noTable := fun _ => get_cleared }

/-- Recording an error leaves ERR_CODE non-zero (R37(f), R202). -/
theorem inv_withError {s : State} {code : BitVec 8} (opc arg : BitVec 8) (hc : code ≠ 0) (h : Inv s) :
    Inv (withError code opc arg s) := by
  have hne : (withError code opc arg s).errCode ≠ 0 := by
    rw [withError_errCode]
    split <;> assumption
  exact { h with error := fun h0 => absurd h0 hne }

theorem inv_failing {s : State} {code : BitVec 8} (opc arg : BitVec 8) (hc : code ≠ 0) (h : Inv s) :
    Inv (failing code opc arg s) :=
  inv_of_storageOf_eq (inv_withError opc arg hc h) rfl

/-- Appending bits that fit (R37(e), R150). -/
theorem inv_append {s : State} {c : Bits} (h : Inv s) (hc : s.bseqLen.toNat + c.length ≤ s.bseqCap.bits) :
    Inv { s with bseq := s.bseq ++ c, bseqLen := s.bseqLen + BitVec.ofNat 32 c.length } := by
  obtain ⟨hlen, _⟩ := h.length
  refine { h with length := ⟨?_, ?_⟩ }
  · simpa [hlen] using bseqLen_add_toNat hc
  · simpa [← hlen] using hc

/-! ### What each command keeps -/

/-- BUILD's tree, with the table discarded (R110, R113, R115). -/
theorem inv_build {s : State} {f : Forest} (h : Inv s) (hf : buildForest s.w = some f) :
    Inv { discardTree s with node := f.node, nodeCount := f.count, root := rootOf f, treeValid := true } := by
  obtain ⟨htree, hcount⟩ := buildForest_isTree hf
  exact { inv_discardTree h with
    nodeCount := hcount
    noTree := fun ht => by cases ht
    tree := fun _ => htree
    table := fun ht => by cases ht }

/-- GEN_TABLE's table (R130). -/
theorem inv_genTable {s : State} (h : Inv s) (ht : s.treeValid = true) :
    Inv { s with lt := tableOf s.node s.root, tableValid := true } :=
  { h with
    table := fun _ => ⟨ht, tableOf_get_iff (h.tree ht)⟩
    noCode := fun _ => tableOf_get_of_not_valid
    noTable := fun hv => by cases hv }

theorem inv_of_success {s u : State} {i : Instr} {data : Data} (hu : Success s i data u) (h : Inv s) : Inv u := by
  cases hu with
  | softReset => exact inv_resetStorage s
  | clearError => exact { h with error := fun _ => ⟨rfl, rfl, rfl⟩ }
  | loadWeight | clearWeights => exact { h with }
  | build hf => exact inv_build h hf
  | genTable ht => exact inv_genTable h ht
  | encode _ hc => exact inv_append h hc
  | bseqClear => exact { h with length := ⟨rfl, Nat.zero_le _⟩ }
  | bseqAddBit hc => exact inv_append h hc
  | bseqAppendBits hc =>
    rw [← immBits_length] at hc ⊢
    exact inv_append h hc
  | _ => exact h

/-- A failing command taints the sequence, discards the tree or changes nothing before its error is recorded (R203). -/
theorem inv_of_failure {s u : State} {i : Instr} {code arg : BitVec 8} (hu : Failure s i code arg u) (h : Inv s) : Inv u := by
  cases hu with
  | build => exact inv_discardTree h
  | readNode | genTable => exact h
  | _ => exact { h with }

/-- No error has the code 0 of success (R200). -/
theorem code_ne_zero_of_failure {s u : State} {i : Instr} {code arg : BitVec 8} (hu : Failure s i code arg u) : code ≠ 0 := by
  cases hu <;> decide

theorem inv_of_exec {i : Instr} {s t : State} (h : Inv s) (ht : exec i s = .next t) : Inv t := by
  cases exec_cases ht with
  | success hu => exact inv_of_storageOf_eq (inv_of_success hu h) rfl
  | failure hu => exact inv_failing _ _ (code_ne_zero_of_failure hu) (inv_of_failure hu h)

theorem inv_of_acceptWord {w : CmdWord} {s t : State} (h : Inv s) (ht : acceptWord w s = .next t) : Inv t := by
  cases hd : decode s.bseqCap w with
  | ok i => exact inv_of_exec h (acceptWord_of_ok hd ▸ ht)
  | error why =>
    rw [acceptWord_of_error hd] at ht
    cases ht
    exact inv_failing _ _ (by decide) h

/-! ### Every step -/

theorem inv_of_runEdge {e : Edge} {s t : State} (ht : RunEdge e s t) (h : Inv s) : Inv t := by
  cases ht with
  | accept _ _ hu =>
    have hs : Inv { s with offered := none } := inv_of_storageOf_eq h rfl
    have hu := inv_of_acceptWord hs hu
    split
    · exact hu
    · exact inv_of_storageOf_eq hu (storageOf_raiseResponse _)
  | _ => exact inv_of_storageOf_eq h rfl

theorem inv_of_step {s t : State} (h : Inv s) (ht : step s = .next t) : Inv t := by
  rcases step_cases ht with ⟨_, rfl⟩ | ⟨e, rest, _, _, rfl⟩ | ⟨e, rest, _, _, _, hrun⟩
  · exact h
  · exact inv_of_storageOf_eq (inv_resetStorage _) rfl
  · exact inv_of_runEdge hrun (inv_of_storageOf_eq h rfl)

end Sys2Proof.Proofs

/-! PROOF. What each command writes (10_state.md R39, R31). -/

namespace Sys2Proof.Proofs

open Sys2Proof.Machine Sys2Proof.Safety Sys2Proof.Laws

section Writes

variable {i : Instr} {s t : State}

theorem listed_of_w_written (h : Ends i s t) (hw : t.w ≠ s.w) :
    (∃ sym imm, i = .loadWeight sym imm) ∨ i = .clearWeights ∨ i = .softReset := by
  cases h with
  | success hu =>
    cases hu with
    | loadWeight sym imm => exact .inl ⟨sym, imm, rfl⟩
    | clearWeights => exact .inr (.inl rfl)
    | softReset => exact .inr (.inr rfl)
    | _ => exact absurd rfl hw
  | failure hu => cases hu <;> exact absurd rfl hw

theorem listed_of_tree_written (h : Ends i s t)
    (hw : t.node ≠ s.node ∨ t.nodeCount ≠ s.nodeCount ∨ t.root ≠ s.root ∨ t.treeValid ≠ s.treeValid) :
    i = .build ∨ i = .softReset := by
  cases h with
  | success hu =>
    cases hu with
    | build => exact .inl rfl
    | softReset => exact .inr rfl
    | _ => simp at hw
  | failure hu =>
    cases hu with
    | build => exact .inl rfl
    | _ => simp at hw

theorem listed_of_table_written (h : Ends i s t) (hw : t.lt ≠ s.lt ∨ t.tableValid ≠ s.tableValid) :
    i = .build ∨ i = .genTable ∨ i = .softReset := by
  cases h with
  | success hu =>
    cases hu with
    | build => exact .inl rfl
    | genTable => exact .inr (.inl rfl)
    | softReset => exact .inr (.inr rfl)
    | _ => simp at hw
  | failure hu =>
    cases hu with
    | build => exact .inl rfl
    | _ => simp at hw

theorem listed_of_sequence_written (h : Ends i s t)
    (hw : t.bseq ≠ s.bseq ∨ t.bseqLen ≠ s.bseqLen ∨ t.bseqTaint ≠ s.bseqTaint) :
    (∃ sym, i = .encode sym) ∨ (∃ imm, i = .bseqAddBit imm) ∨ (∃ n imm, i = .bseqAppendBits n imm) ∨
      i = .bseqClear ∨ i = .softReset := by
  cases h with
  | success hu =>
    cases hu with
    | encode => exact .inl ⟨_, rfl⟩
    | bseqAddBit => exact .inr (.inl ⟨_, rfl⟩)
    | bseqAppendBits => exact .inr (.inr (.inl ⟨_, _, rfl⟩))
    | bseqClear => exact .inr (.inr (.inr (.inl rfl)))
    | softReset => exact .inr (.inr (.inr (.inr rfl)))
    | _ => simp at hw
  | failure hu =>
    cases hu with
    | missing | encode => exact .inl ⟨_, rfl⟩
    | bseqAddBit => exact .inr (.inl ⟨_, rfl⟩)
    | bseqAppendBits => exact .inr (.inr (.inl ⟨_, _, rfl⟩))
    | _ => simp at hw

@[simp] theorem rcField_errResponse (code arg : BitVec 8) : rcField (errResponse code arg) = code := by
  ext i hi
  rw [rcField, errResponse, BitVec.getElem_extractLsb']
  grind

theorem listed_of_error_written (h : Ends i s t)
    (hw : t.errCode ≠ s.errCode ∨ t.errOpc ≠ s.errOpc ∨ t.errArg ≠ s.errArg ∨ t.errMulti ≠ s.errMulti) :
    (∃ rsp, inFlight t = [rsp] ∧ rcField rsp ≠ 0) ∨ i = .clearError ∨ i = .softReset := by
  cases h with
  | success hu =>
    cases hu with
    | clearError => exact .inr (.inl rfl)
    | softReset => exact .inr (.inr rfl)
    | _ => simp at hw
  | failure hu => exact .inl ⟨_, rfl, by simpa using code_ne_zero_of_failure hu⟩

theorem taint_kept (h : Ends i s t) (ht : s.bseqTaint = true) (hc : i ≠ .bseqClear) (hr : i ≠ .softReset) :
    t.bseqTaint = true := by
  cases h with
  | success hu =>
    cases hu with
    | bseqClear => exact absurd rfl hc
    | softReset => exact absurd rfl hr
    | _ => exact ht
  | failure hu =>
    cases hu with
    | build | readNode | genTable => exact ht
    | _ => rfl

end Writes

/-! ### The obligations of 10_state.md -/

/-- Settles O15: R38's values are the fields of the reset state, and its two tables are filled with one value each. -/
theorem resetHoldsTheTableOfValues : Obligations.ResetHoldsTheTableOfValues :=
  ⟨get_zero, rfl, rfl, rfl, rfl, get_cleared, rfl, rfl, rfl, rfl, rfl, rfl, rfl, rfl, rfl, rfl⟩

/-- Settles O16: the reset state's storages are those that every reset leaves. -/
theorem resetMeetsTheInvariants : Obligations.ResetMeetsTheInvariants :=
  inv_resetStorage State.reset

/-- Settles O17: a step is no edge, a reset edge or an edge by phase, and only an accepted word writes storage. -/
theorem everyStepKeepsTheInvariants : Obligations.EveryStepKeepsTheInvariants :=
  fun _ _ => inv_of_step

/-- Settles O18: by the cases in which a command ends, one piece of state at a time. -/
theorem commandsWriteOnlyWhatTheTableLists : Obligations.CommandsWriteOnlyWhatTheTableLists := by
  intro i s t h
  have hends := exec_cases h
  obtain ⟨t', _, ht', _, _, _, _, hcap⟩ := exec_answers i s
  obtain rfl : t' = t := by cases ht'.symm.trans h; rfl
  refine ⟨listed_of_w_written hends, listed_of_tree_written hends, listed_of_table_written hends, ?_, ?_,
    listed_of_error_written hends, hcap⟩
  · exact fun hw => listed_of_sequence_written hends (hw.imp_right .inl)
  · exact fun hw => listed_of_sequence_written hends (.inr (.inr hw))

/-- Settles O60: by the cases in which a command ends. -/
theorem taintStaysUntilCleared : Obligations.TaintStaysUntilCleared :=
  fun _ _ _ ht hc hr h => taint_kept (exec_cases h) ht hc hr

end Sys2Proof.Proofs

/-! PROOF. The read commands have no side effects (20_memory.md R56). -/

namespace Sys2Proof.Proofs

open Sys2Proof.Machine Sys2Proof.Safety Sys2Proof.Laws

/-- The other direction of exec_cases for a success: the cases of Success say exactly when a command succeeds. -/
theorem exec_of_success {i : Instr} {s u : State} {data : Data} (hu : Success s i data u) :
    exec i s = .next (responding (okResponse data) u) := by
  cases hu with
  | build hf => simp [exec, execBuild, hf, respond_eq]
  | readNode hn he => simp [exec, execReadNode, Nat.not_le.mpr hn, he, respond_eq]
  | genTable ht => simp [exec, execGenTable, ht, respond_eq]
  | encode hv hc => simp [exec, execEncode, hv, appendCommand_of_fits hc]
  | bseqAddBit hc => exact appendCommand_of_fits hc
  | bseqAppendBits hc => simp [exec, execBseqAppendBits, appendCommand_of_fits, hc]
  | _ => rfl

/-- The eight read commands of R56. -/
def IsRead (i : Instr) : Prop :=
  i = .readStatus ∨ i = .readError ∨ (∃ sym, i = .readWeight sym) ∨ (∃ imm, i = .readNode imm) ∨
    (∃ sym, i = .readCodeLen sym) ∨ (∃ sym imm, i = .readCodeWord sym imm) ∨ i = .readBseqLen ∨
    ∃ imm, i = .readBseqWord imm

section Reads

variable {i : Instr} {s u : State}

/-- A read that succeeds leaves the state it read, and its answer does not depend on the response in flight. -/
theorem IsRead.success {data : Data} (hr : IsRead i) (hu : Success s i data u) :
    u = s ∧ ∀ rsp, Success (responding rsp s) i data (responding rsp s) := by
  cases hu with
  | readNode hn he => exact ⟨rfl, fun _ => .readNode hn he⟩
  | readStatus | readError | readWeight | readCodeLen | readCodeWord | readBseqLen | readBseqWord =>
    exact ⟨rfl, fun _ => by constructor⟩
  | _ => simp [IsRead] at hr

theorem IsRead.failure_frame {code arg : BitVec 8} (hr : IsRead i) (hu : Failure s i code arg u) : u = s := by
  cases hu with
  | readNode => rfl
  | _ => simp [IsRead] at hr

end Reads

@[simp] theorem rcField_okResponse (data : Data) : rcField (okResponse data) = 0 := by
  ext i hi
  rw [rcField, okResponse, BitVec.getElem_extractLsb']
  grind

/-- Settles O19: a read that succeeds leaves the state it read, so it succeeds again with the same data; one that fails only
records its error. -/
theorem readsHaveNoSideEffects : Obligations.ReadsHaveNoSideEffects := by
  intro i s t rsp hread h hphase
  have hr : IsRead i := hread
  cases exec_cases h with
  | @success data _ hu =>
    obtain ⟨rfl, hagain⟩ := hr.success hu
    cases hphase
    have hrepeat := exec_of_success (hagain (okResponse data))
    exact ⟨fun _ => ⟨rfl, hrepeat⟩, fun hne => absurd (rcField_okResponse _) hne⟩
  | failure hu =>
    obtain rfl := hr.failure_frame hu
    cases hphase
    have hne := code_ne_zero_of_failure hu
    exact ⟨fun h0 => absurd ((rcField_errResponse _ _).symm.trans h0) hne, fun _ => rfl⟩

end Sys2Proof.Proofs

/-! PROOF. The decoder and the encoder agree, and decoding rejects by the first failing check (30_encoding.md R74 to R81). -/

namespace Sys2Proof.Proofs

open Sys2Proof.Machine Sys2Proof.Safety Sys2Proof.Laws

/-! ### A word by its fields (R74) -/

/-- The word of given fields, its bits [47:32] zero (R74). -/
def wordOf (opc : Opcode) (a : BitVec 8) (imm : Data) : CmdWord := opc ++ a ++ 0#16 ++ imm

theorem encode_eq_wordOf (i : Instr) : encode i = wordOf (opcodeOf i) (operandA i) (operandImm i) := rfl

@[simp] theorem opcField_wordOf (opc : Opcode) (a : BitVec 8) (imm : Data) : opcField (wordOf opc a imm) = opc := by
  ext i hi
  rw [opcField, wordOf, BitVec.getElem_extractLsb']
  grind

@[simp] theorem aField_wordOf (opc : Opcode) (a : BitVec 8) (imm : Data) : aField (wordOf opc a imm) = a := by
  ext i hi
  rw [aField, wordOf, BitVec.getElem_extractLsb']
  grind

@[simp] theorem immField_wordOf (opc : Opcode) (a : BitVec 8) (imm : Data) : immField (wordOf opc a imm) = imm := by
  ext i hi
  rw [immField, wordOf, BitVec.getElem_extractLsb']
  grind

@[simp] theorem reservedField_wordOf (opc : Opcode) (a : BitVec 8) (imm : Data) :
    (wordOf opc a imm).extractLsb' 32 16 = 0 := by
  ext i hi
  rw [wordOf, BitVec.getElem_extractLsb']
  grind

/-- A word whose bits [47:32] are zero is the word of its own fields. -/
theorem wordOf_fields {w : CmdWord} (h : w.extractLsb' 32 16 = 0) :
    wordOf (opcField w) (aField w) (immField w) = w := by
  have hz : w = opcField w ++ aField w ++ w.extractLsb' 32 16 ++ immField w := by
    ext i hi
    grind [opcField, aField, immField]
  rw [h] at hz
  exact hz.symm

/-- A word's fields determine it when its bits [47:32] are zero. -/
theorem wordOf_eq_iff {w : CmdWord} {a : BitVec 8} {imm : Data} :
    wordOf (opcField w) a imm = w ↔ a = aField w ∧ w.extractLsb' 32 16 = 0 ∧ imm = immField w := by
  constructor
  · intro h
    rw [← h]
    simp
  · rintro ⟨rfl, hz, rfl⟩
    exact wordOf_fields hz

/-! ### Formats (R75) -/

/-- Field A holds an operand in this format. -/
def takesA : Format → Bool
  | .s | .si | .ni => true
  | .z | .i => false

/-- Field IMM holds an operand in this format. -/
def takesImm : Format → Bool
  | .si | .i | .ni => true
  | .z | .s => false

/-- The reserved bits are clear exactly when the word is that of its operand fields alone. -/
theorem reservedClear_iff (f : Format) (w : CmdWord) :
    reservedClear f w = true ↔
      wordOf (opcField w) (if takesA f then aField w else 0) (if takesImm f then immField w else 0) = w := by
  rw [wordOf_eq_iff]
  cases f <;>
    simp [reservedClear, takesA, takesImm, aField, immField, ← BitVec.toNat_inj, Nat.shiftRight_eq_div_pow] <;> omega

/-! ### The opcode map (R79) -/

/-- A row's command has the row's opcode, and the operands that the row's format takes. -/
theorem row_command_fields {row : OpRow} (h : row ∈ opcodeTable) (a : BitVec 8) (imm : Data) :
    opcodeOf (row.command a imm) = row.opc ∧
      operandA (row.command a imm) = (if takesA row.format then a else 0) ∧
      operandImm (row.command a imm) = if takesImm row.format then imm else 0 := by
  revert row
  simp [opcodeTable, opcodeOf, operandA, operandImm, takesA, takesImm]

theorem encode_command {row : OpRow} (h : row ∈ opcodeTable) (a : BitVec 8) (imm : Data) :
    encode (row.command a imm) =
      wordOf row.opc (if takesA row.format then a else 0) (if takesImm row.format then imm else 0) := by
  obtain ⟨hopc, ha, himm⟩ := row_command_fields h a imm
  rw [encode_eq_wordOf, hopc, ha, himm]

/-- Each command has its row (the model's own per-command facts). -/
theorem tableRow_statement : (i : Instr) → TableRow.Statement i
  | .nop => TableRow.nop
  | .softReset => TableRow.softReset
  | .readStatus => TableRow.readStatus
  | .readError => TableRow.readError
  | .clearError => TableRow.clearError
  | .loadWeight sym imm => TableRow.loadWeight sym imm
  | .readWeight sym => TableRow.readWeight sym
  | .clearWeights => TableRow.clearWeights
  | .build => TableRow.build
  | .readNode imm => TableRow.readNode imm
  | .genTable => TableRow.genTable
  | .readCodeLen sym => TableRow.readCodeLen sym
  | .readCodeWord sym imm => TableRow.readCodeWord sym imm
  | .encode sym => TableRow.encode sym
  | .bseqClear => TableRow.bseqClear
  | .bseqAddBit imm => TableRow.bseqAddBit imm
  | .bseqAppendBits n imm => TableRow.bseqAppendBits n imm
  | .readBseqLen => TableRow.readBseqLen
  | .readBseqWord imm => TableRow.readBseqWord imm

/-! ### The checks of decode, in order (R80) -/

/-- The row that decode finds for a word. -/
def rowFor (w : CmdWord) : Option OpRow := opcodeTable.find? fun row => row.opc == opcField w

/-- The command that a row stands for, with the operands of the word. -/
def commandOf (row : OpRow) (w : CmdWord) : Instr := row.command (aField w) (immField w)

section Checks

variable {cap : BseqCap} {w : CmdWord} {row : OpRow} {i : Instr} {s : State}

theorem mem_of_rowFor (h : rowFor w = some row) : row ∈ opcodeTable ∧ row.opc = opcField w :=
  ⟨List.mem_of_find?_eq_some h, by simpa using List.find?_some h⟩

/-- A row's reserved bits are clear exactly when the word is that of its command. -/
theorem reservedClear_iff_encode (h : rowFor w = some row) :
    reservedClear row.format w = true ↔ encode (commandOf row w) = w := by
  obtain ⟨hmem, hopc⟩ := mem_of_rowFor h
  rw [reservedClear_iff, commandOf, encode_command hmem, hopc]

theorem decode_of_rowFor_none (h : rowFor w = none) : decode cap w = .error .unassignedOpcode := by
  simp only [rowFor] at h
  simp [decode, h]

/-- With the opcode assigned: the word must be that of its command, and the command well formed (R80, R81). -/
theorem decode_of_rowFor_some (h : rowFor w = some row) : decode cap w =
    if encode (commandOf row w) = w then
      if WellFormed cap (commandOf row w) then .ok (commandOf row w) else .error .operandOutOfRange
    else .error .reservedNonZero := by
  have hres := reservedClear_iff_encode h
  simp only [rowFor] at h
  simp only [decode, h, inStaticRange_eq_wellFormed]
  exact if_congr hres rfl rfl

theorem rowFor_encode (i : Instr) : ∃ row, rowFor (encode i) = some row ∧ commandOf row (encode i) = i := by
  simpa [rowFor, commandOf, encode_eq_wordOf, TableRow.Statement] using tableRow_statement i

/-- Decoding answers a command exactly for the word of that command, well formed. -/
theorem decode_eq_ok_iff : decode cap w = .ok i ↔ encode i = w ∧ WellFormed cap i = true := by
  constructor
  · intro h
    cases hrow : rowFor w with
    | none => simp [decode_of_rowFor_none hrow] at h
    | some row =>
      rw [decode_of_rowFor_some hrow] at h
      split_ifs at h with hw hwf
      cases h
      exact ⟨hw, hwf⟩
  · rintro ⟨rfl, hwf⟩
    obtain ⟨row, hrow, hi⟩ := rowFor_encode i
    simp [decode_of_rowFor_some hrow, hi, hwf]

/-! ### The checks in the spec's own terms -/

/-- The opcodes of R79 are those of the map. -/
theorem assigned_iff : Assigned w ↔ rowFor w ≠ none := by
  have hopcs : Assigned w ↔ opcField w ∈ opcodeTable.map OpRow.opc := Iff.rfl
  rw [hopcs, List.mem_map, rowFor]
  simp

/-- The spec's lists of opcodes per format are the map's (R79). -/
theorem opcodes_of_format : ∀ row ∈ opcodeTable,
    (row.opc ∈ [0x00, 0x01, 0x02, 0x03, 0x04, 0x12, 0x20, 0x30, 0x50, 0x53] ↔ row.format = .z) ∧
    (row.opc ∈ [0x11, 0x31, 0x40] ↔ row.format = .s) ∧
    (row.opc ∈ [0x10, 0x32, 0x52] ↔ row.format = .si ∨ row.format = .ni) ∧
    (row.opc ∈ [0x21, 0x51, 0x54] ↔ row.format = .i) := by
  decide

theorem reservedZero_iff (h : rowFor w = some row) : ReservedZero w ↔ encode (commandOf row w) = w := by
  obtain ⟨hmem, hopc⟩ := mem_of_rowFor h
  obtain ⟨hz, hs, hsi, hi⟩ := opcodes_of_format row hmem
  simp only [hopc, opcField] at hz hs hsi hi
  rw [← reservedClear_iff_encode h, ReservedZero, hz, hs, hsi, hi]
  cases row.format <;> simp [reservedClear]

/-- R81's ranges on a word are those on its command. -/
theorem inStaticRange_encode_iff (cap : BseqCap) (i : Instr) : InStaticRange cap (encode i) ↔ WellFormed cap i = true := by
  have hopc : (encode i).extractLsb' 56 8 = opcodeOf i := opcField_wordOf _ _ _
  have ha : (encode i).extractLsb' 48 8 = operandA i := aField_wordOf _ _ _
  have himm : (encode i).extractLsb' 0 32 = operandImm i := immField_wordOf _ _ _
  rw [InStaticRange, hopc, ha, himm]
  cases i with
  | readNode imm => simp [opcodeOf, operandImm, WellFormed, Nat.lt_succ_iff]
  | readCodeWord sym imm => simp [opcodeOf, operandImm, WellFormed, Nat.lt_succ_iff]
  | readBseqWord imm => simp [opcodeOf, operandImm, WellFormed, BseqCap.bits, BseqCap.words]
  | _ => simp [opcodeOf, operandA, operandImm, WellFormed]

/-- A word that decode rejects changes only the error register (R80, R203). -/
theorem rejected_of_decode {why : Illegal} (h : decode s.bseqCap w = .error why) : Rejected why.subcause w s :=
  acceptWord_of_error h

end Checks

/-! ### The obligations on decoding -/

/-- Settles O1: decoding answers a command exactly for its own word. -/
theorem decodeOfEncodeIsTheCommand : Obligations.DecodeOfEncodeIsTheCommand :=
  fun _ _ hwf => decode_eq_ok_iff.2 ⟨rfl, hwf⟩

/-- Settles O2: decoding answers a command only for its own word. -/
theorem encodeOfDecodedWordIsTheWord : Obligations.EncodeOfDecodedWordIsTheWord :=
  fun _ _ _ => decode_eq_ok_iff.1

/-- Settles O3: by the row that decode finds, whose command's word is compared with the word. -/
theorem wordsAreRejectedByTheFirstFailingCheck : Obligations.WordsAreRejectedByTheFirstFailingCheck := by
  intro w s
  rw [assigned_iff]
  cases hrow : rowFor w with
  | none => exact ⟨fun _ => rejected_of_decode (decode_of_rowFor_none hrow), by simp, by simp, by simp⟩
  | some row =>
    rw [reservedZero_iff hrow]
    have hdec := decode_of_rowFor_some (cap := s.bseqCap) hrow
    refine ⟨by simp, fun _ hw => ?_, fun _ hw hrange => ?_, fun _ hw hrange => ⟨commandOf row w, hw, ?_, ?_⟩⟩
    · exact rejected_of_decode (why := .reservedNonZero) (by rw [hdec, if_neg hw])
    · rw [← hw, inStaticRange_encode_iff] at hrange
      exact rejected_of_decode (why := .operandOutOfRange) (by rw [hdec, if_pos hw, if_neg hrange])
    · exact (row_command_fields (mem_of_rowFor hrow).1 _ _).1.trans (mem_of_rowFor hrow).2
    · rw [← hw, inStaticRange_encode_iff] at hrange
      exact acceptWord_of_ok (by rw [hdec, if_pos hw, if_pos hrange])

/-- Settles O4: the seven commands' words are those written out, and each illegal word fails its check. -/
theorem wordsOfTheSpecDecodeToTheirCommands : Obligations.WordsOfTheSpecDecodeToTheirCommands := by
  intro cap
  refine ⟨?_, ?_, ?_, ?_, ?_, ?_, ?_, rfl, rfl, rfl⟩ <;> exact decode_eq_ok_iff.2 ⟨by decide, rfl⟩

end Sys2Proof.Proofs

/-! PROOF. Commands on the channels (30_encoding.md R70 to R73): what each edge does, and a run as the transactions of its
accepted commands. -/

namespace Sys2Proof.Proofs

open Sys2Proof.Machine Sys2Proof.Safety Sys2Proof.Laws

/-! ### One edge -/

section Edge

variable {s t : State} {e : Edge} {rest : List Edge} {rsp : RspWord}

/-- A command's end at its transfer edge: the response raised at once, or later when the implementation needs longer (R72, R242). -/
theorem finish_next (busy : Bool) (h : t.phase = .working rsp) :
    finish busy (.next t) = .next { t with phase := if busy then .working rsp else .answering rsp } := by
  cases busy with
  | true => simp [finish, ← h]
  | false => simp [finish, raiseResponse_of_working h]

/-- A host that offers its word for the first time, or the word it offered before, keeps the handshake (R71). -/
theorem handshakeKept_of_offer (hv : e.cmdValid = true) (ho : s.offered = none ∨ s.offered = some e.cmdData) :
    handshakeKept s e = true := by
  rcases ho with ho | ho <;> simp [handshakeKept, Edge.offer, hv, ho]

/-- An edge at which a command transfers runs the accepted word (R71, R72). -/
theorem step_accept (hs : s.script = e :: rest) (hr : e.rstN = true) (hv : e.cmdValid = true) (hp : s.phase = .ready)
    (ho : s.offered = none ∨ s.offered = some e.cmdData) :
    step s = finish e.busy (acceptWord e.cmdData { s with script := rest, offered := none }) := by
  rw [step_eq_runEdge hs hr (handshakeKept_of_offer hv ho)]
  simp [runEdge, hp, Edge.offer, hv]

/-- An edge outside reset at which no command transfers changes no storage, and gives and loses no response. -/
theorem runEdge_frame (h : RunEdge e s t) (hno : cmdReady s = false ∨ e.cmdValid = false) :
    storageOf t = storageOf s ∧ t.responses ++ inFlight t = s.responses ++ inFlight s := by
  cases h with
  | accept hp hv _ => simp [cmdReady, hp, hv] at hno
  | clear hp | work hp => exact ⟨rfl, by cases e.busy <;> simp [inFlight, hp]⟩
  | idle | hold => exact ⟨rfl, rfl⟩
  | deliver hp _ => exact ⟨rfl, by simp [inFlight, hp]⟩

theorem script_of_runEdge (h : RunEdge e s t) : t.script = s.script := by
  cases h with
  | accept hp hv hu =>
    obtain ⟨_, _, hu', _, _, hscript, _⟩ := acceptWord_answers e.cmdData { s with offered := none }
    cases hu'.symm.trans hu
    cases e.busy <;> simpa using hscript
  | _ => rfl

end Edge

/-! ### A command sees the storages alone (R20, R72) -/

section Transaction

variable {i : Instr} {s t u : State} {code arg : BitVec 8}

/-- The other direction of exec_cases for a failure: the cases of Failure say exactly when a command fails. -/
theorem exec_of_failure (hu : Failure s i code arg u) : exec i s = .next (failing code (opcodeOf i) arg u) := by
  cases hu with
  | build hf => simp [exec, execBuild, hf, raise_eq, ErrKind.code]
  | readNode hn =>
    rcases hn with hn | hn
    · simp [exec, execReadNode, hn, raise_eq, ErrKind.code]
    · simp [exec, execReadNode, hn, raise_eq, ErrKind.code]
  | genTable ht => simp [exec, execGenTable, ht, raise_eq, ErrKind.code]
  | missing hv => simp [exec, execEncode, hv, raise_eq, ErrKind.code]
  | encode hv hc => simp [exec, execEncode, hv, appendCommand_of_not_fits hc]
  | bseqAddBit hc => exact appendCommand_of_not_fits hc
  | bseqAppendBits hc => exact appendCommand_of_not_fits (by simpa using hc)

theorem success_storageOf {data : Data} (h : Success s i data u) : Success (storageOf s) i data (storageOf u) := by
  cases h with
  | build hf => exact .build hf
  | readNode hn he => exact .readNode hn he
  | genTable ht => exact .genTable ht
  | encode hv hc => exact .encode hv hc
  | bseqAddBit hc => exact .bseqAddBit hc
  | bseqAppendBits hc => exact .bseqAppendBits hc
  | _ => constructor

theorem failure_storageOf (h : Failure s i code arg u) : Failure (storageOf s) i code arg (storageOf u) := by
  cases h with
  | build hf => exact .build hf
  | readNode hn => exact .readNode hn
  | genTable ht => exact .genTable ht
  | missing hv => exact .missing hv
  | encode hv hc => exact .encode hv hc
  | bseqAddBit hc => exact .bseqAddBit hc
  | bseqAppendBits hc => exact .bseqAppendBits hc

/-- `r` ends with the storages and the response of `t`. -/
def SameEnd (r : Result) (t : State) : Prop :=
  ∃ t', r = .next t' ∧ storageOf t' = storageOf t ∧ inFlight t' = inFlight t

theorem exec_storageOf (h : exec i s = .next t) : SameEnd (exec i (storageOf s)) t := by
  cases exec_cases h with
  | success hu => exact ⟨_, exec_of_success (success_storageOf hu), rfl, rfl⟩
  | failure hu => exact ⟨_, exec_of_failure (failure_storageOf hu), rfl, rfl⟩

theorem acceptWord_storageOf {w : CmdWord} (h : acceptWord w s = .next t) : SameEnd (acceptWord w (storageOf s)) t := by
  cases hd : decode s.bseqCap w with
  | ok i =>
    rw [acceptWord_of_ok hd] at h
    rw [acceptWord_of_ok (s := storageOf s) hd]
    exact exec_storageOf h
  | error why =>
    rw [acceptWord_of_error hd] at h
    cases h
    exact ⟨_, acceptWord_of_error (s := storageOf s) hd, rfl, rfl⟩

/-- An accepted word makes the transaction of R20 and R72 on the storages. -/
theorem transact_of_acceptWord {w : CmdWord} (h : acceptWord w s = .next t) :
    transact w (storageOf s) = (storageOf t, inFlight t) := by
  obtain ⟨t', ht', hst, hin⟩ := acceptWord_storageOf h
  simp [transact, ht', hst, hin]

end Transaction

/-! ### Runs without reset (R72, R73) -/

section Runs

variable {s t u : State} {e : Edge}

/-- From `s` to `t` the commands `ws` were accepted: the storages are those of their transactions, and their responses have
joined those given or in flight. -/
def Transacts (ws : List CmdWord) (s t : State) : Prop :=
  storageOf t = (transactAll ws (storageOf s)).1 ∧
    t.responses ++ inFlight t = s.responses ++ inFlight s ++ (transactAll ws (storageOf s)).2

theorem transacts_nil (hst : storageOf t = storageOf s) (hr : t.responses ++ inFlight t = s.responses ++ inFlight s) :
    Transacts [] s t :=
  ⟨hst, by simpa [transactAll] using hr⟩

theorem transactAll_append (ws vs : List CmdWord) (s : State) : transactAll (ws ++ vs) s =
    ((transactAll vs (transactAll ws s).1).1, (transactAll ws s).2 ++ (transactAll vs (transactAll ws s).1).2) := by
  induction ws generalizing s with
  | nil => rfl
  | cons w ws ih => simp [transactAll, ih]

theorem transacts_append {ws vs : List CmdWord} (h₁ : Transacts ws s u) (h₂ : Transacts vs u t) :
    Transacts (ws ++ vs) s t := by
  obtain ⟨hst₁, hr₁⟩ := h₁
  obtain ⟨hst₂, hr₂⟩ := h₂
  rw [Transacts, transactAll_append, ← hst₁]
  exact ⟨hst₂, by rw [hr₂, hr₁, List.append_assoc]⟩

@[simp] theorem inFlight_raiseResponse (s : State) : inFlight (raiseResponse s) = inFlight s := by
  cases hp : s.phase <;> simp [raiseResponse, inFlight, hp]

/-- At a transfer edge the accepted word's one transaction is made (R72). -/
theorem transacts_accept {w : CmdWord} {busy : Bool} (hp : s.phase = .ready)
    (hu : acceptWord w { s with offered := none } = .next u) :
    Transacts [w] s (if busy then u else raiseResponse u) := by
  obtain ⟨_, _, hu', _, _, _, hresp, _⟩ := acceptWord_answers w { s with offered := none }
  cases hu'.symm.trans hu
  have htr : transact w (storageOf s) = (storageOf u, inFlight u) :=
    transact_of_acceptWord (s := { s with offered := none }) hu
  have hin : inFlight s = [] := by simp [inFlight, hp]
  cases busy <;> simp [Transacts, transactAll, htr, hin, hresp]

/-- An edge outside reset transacts the command that transfers at it, if one does. -/
theorem transacts_runEdge (h : RunEdge e s t) :
    Transacts (if e.cmdValid && cmdReady s then [e.cmdData] else []) s t := by
  by_cases hacc : (e.cmdValid && cmdReady s) = true
  · rw [if_pos hacc]
    simp only [Bool.and_eq_true] at hacc
    obtain ⟨hv, hready⟩ := hacc
    cases h with
    | accept hp _ hu => exact transacts_accept hp hu
    | idle _ hv' => simp [hv'] at hv
    | clear hp | work hp | deliver hp | hold hp => simp [cmdReady, hp] at hready
  · rw [if_neg hacc]
    have hno : cmdReady s = false ∨ e.cmdValid = false := by
      rw [Bool.and_eq_true, not_and_or, Bool.not_eq_true, Bool.not_eq_true] at hacc
      exact hacc.symm
    obtain ⟨hst, hresp⟩ := runEdge_frame h hno
    exact transacts_nil hst hresp

/-- No edge of the script is a reset edge. -/
def NoReset (s : State) : Prop := ∀ e ∈ s.script, e.rstN = true

/-- A step with no reset edge to come transacts the command that transfers at it (R72). -/
theorem transacts_step (hnr : NoReset s) (h : step s = .next t) : Transacts (acceptedNext s) s t ∧ NoReset t := by
  rcases step_cases h with ⟨hs, rfl⟩ | ⟨e, rest, hs, hr, _⟩ | ⟨e, rest, hs, hr, _, hrun⟩
  · exact ⟨by simpa [acceptedNext, hs] using transacts_nil rfl rfl, hnr⟩
  · rw [hnr e (by simp [hs])] at hr
    cases hr
  · have hscript : t.script = rest := script_of_runEdge hrun
    refine ⟨?_, fun e' he' => hnr e' (by simp [hs, ← hscript, he'])⟩
    have hacc : acceptedNext s = if e.cmdValid && cmdReady s then [e.cmdData] else [] := by
      simp [acceptedNext, hs, hr]
    rw [hacc]
    exact transacts_runEdge (s := { s with script := rest }) hrun

theorem runSteps_succ {k : Nat} (h : runSteps (k + 1) s = .next t) :
    ∃ u, step s = .next u ∧ runSteps k u = .next t ∧ acceptedIn (k + 1) s = acceptedNext s ++ acceptedIn k u := by
  cases hu : step s <;> simp_all [runSteps, acceptedIn]

/-- A run without reset transacts the commands accepted in it, in order (R72, R73). -/
theorem transacts_runSteps {k : Nat} (hnr : NoReset s) (h : runSteps k s = .next t) : Transacts (acceptedIn k s) s t := by
  induction k generalizing s with
  | zero =>
    cases h
    exact transacts_nil rfl rfl
  | succ k ih =>
    obtain ⟨u, hu, hrun, hacc⟩ := runSteps_succ h
    obtain ⟨hstep, hnr'⟩ := transacts_step hnr hu
    rw [hacc]
    exact transacts_append hstep (ih hnr' hrun)

end Runs

/-! ### The obligations on the channels -/

/-- Settles O7: every accepted word answers. -/
theorem everyWordIsAnswered : Obligations.EveryWordIsAnswered := by
  intro w s
  obtain ⟨t, rsp, ht, hp, _, hscript, hresp, hcap⟩ := acceptWord_answers w s
  exact ⟨t, rsp, ht, hp, by simp [inFlight, hp], hscript, hresp, hcap⟩

/-- Settles O9: by what an edge does in each phase. -/
theorem storageChangesOnlyByAnAcceptedCommand : Obligations.StorageChangesOnlyByAnAcceptedCommand := by
  intro s e rest hs hr
  refine ⟨fun t hno ht => ?_, fun rsp hp hk => ⟨by simp [cmdReady, hp], by simp [rspOffered, hp], ?_⟩,
    fun hp hv hk => ⟨by simp [cmdReady, hp], by simp [rspOffered, hp], ?_⟩⟩
  · rcases step_cases ht with ⟨hs', _⟩ | ⟨e', rest', hs', hr', _⟩ | ⟨e', rest', hs', _, _, hrun⟩
    · simp [hs] at hs'
    · cases hs.symm.trans hs'
      simp [hr] at hr'
    · cases hs.symm.trans hs'
      exact ⟨(runEdge_frame hrun hno).1, script_of_runEdge hrun⟩
  · rw [step_eq_runEdge hs hr hk]
    simp [runEdge, hp, Edge.offer]
  · rw [step_eq_runEdge hs hr hk]
    simp [runEdge, hp, hv, Edge.offer]

/-- Settles O14: by induction on the steps, each of which transacts the command that transfers at it. -/
theorem everyRunIsARunOfTransactions : Obligations.EveryRunIsARunOfTransactions := by
  intro k s t hp hnr h
  obtain ⟨hst, hresp⟩ := transacts_runSteps hnr h
  have hin : inFlight s = [] := by simp [inFlight, hp]
  exact ⟨hst, by simpa [hin] using hresp⟩

/-- Settles O5: the accepted word runs its command, which answers. -/
theorem stepRunsTheDecodedCommand : Obligations.StepRunsTheDecodedCommand := by
  intro s e rest i hs hr hv hp ho hd
  obtain ⟨t, rsp, ht, htp, _⟩ := exec_answers i { s with script := rest, offered := none }
  have hacc := (acceptWord_of_ok (s := { s with script := rest, offered := none }) hd).trans ht
  exact ⟨t, rsp, ht, htp, by rw [step_accept hs hr hv hp ho, hacc, finish_next _ htp]⟩

/-- Settles O6: the accepted word is rejected over an otherwise unchanged state. -/
theorem stepAnswersAnIllegalWord : Obligations.StepAnswersAnIllegalWord := by
  intro s e rest why hs hr hv hp ho hd
  have hacc := acceptWord_of_error (s := { s with script := rest, offered := none }) hd
  rw [step_accept hs hr hv hp ho, hacc, finish_next _ rfl]
  rfl

/-- Settles O8: the edge in the answering phase, by rsp_ready. -/
theorem responseIsHeldUntilItTransfers : Obligations.ResponseIsHeldUntilItTransfers := by
  intro s e rest rsp hs hr hp hk
  refine ⟨by simp [rspOffered, hp], by simp [cmdReady, hp], ?_⟩
  rw [step_eq_runEdge hs hr hk]
  cases hready : e.rspReady <;> simp [runEdge, hp, hready, Edge.offer]

end Sys2Proof.Proofs

/-! PROOF. The pseudo-instructions LOAD_TABLE and BSEQ_APPEND_STR (30_encoding.md R85). -/

namespace Sys2Proof.Proofs

open Sys2Proof.Machine Sys2Proof.Safety Sys2Proof.Laws

/-! ### Runs of commands -/

theorem runCommands_cons {i : Instr} {is : List Instr} {s u : State} (h : exec i s = .next u) :
    runCommands (i :: is) s = runCommands is u := by
  simp [runCommands, h]

/-- A run of commands starts with its first command, which answers. -/
theorem runCommands_cons_next {i : Instr} {is : List Instr} {s t : State} (h : runCommands (i :: is) s = .next t) :
    ∃ u, exec i s = .next u ∧ runCommands is u = .next t := by
  obtain ⟨u, _, hu, _⟩ := exec_answers i s
  exact ⟨u, hu, runCommands_cons hu ▸ h⟩

theorem inv_of_runCommands {is : List Instr} {s t : State} (h : Inv s) (ht : runCommands is s = .next t) : Inv t := by
  induction is generalizing s with
  | nil =>
    cases ht
    exact h
  | cons i is ih =>
    obtain ⟨u, hu, hrun⟩ := runCommands_cons_next ht
    exact ih (inv_of_exec h hu) hrun

/-- A taint stays over commands that are neither BSEQ_CLEAR nor SOFT_RESET (R31, R240). -/
theorem taint_of_runCommands {is : List Instr} {s t : State} (htaint : s.bseqTaint = true)
    (hkeep : ∀ i ∈ is, i ≠ .bseqClear ∧ i ≠ .softReset) (ht : runCommands is s = .next t) : t.bseqTaint = true := by
  induction is generalizing s with
  | nil =>
    cases ht
    exact htaint
  | cons i is ih =>
    obtain ⟨u, hu, hrun⟩ := runCommands_cons_next ht
    obtain ⟨⟨hclear, hreset⟩, hrest⟩ := List.forall_mem_cons.1 hkeep
    exact ih (taint_kept (exec_cases hu) htaint hclear hreset) hrest hrun

/-! ### LOAD_TABLE -/

/-- The commands that load the pairs, in the order given. -/
def loadWeights (pairs : List (Sym × Weight)) : List Instr := pairs.map fun p => .loadWeight p.1 p.2

theorem loadTable_eq (pairs : List (Sym × Weight)) : loadTable pairs =
    .clearWeights :: loadWeights (pairs.insertionSort fun a b => a.1.toNat ≤ b.1.toNat) := rfl

/-- Loading pairs with distinct symbols sets each pair's weight, and leaves every other weight and the rest of the storage (R100). -/
theorem runCommands_loadWeights {pairs : List (Sym × Weight)} (s : State) (hd : (pairs.map Prod.fst).Nodup) :
    ∃ (t : State) (w : WeightTable), runCommands (loadWeights pairs) s = .next t ∧
      storageOf t = storageOf { s with w := w } ∧
      (∀ p ∈ pairs, w.get p.1 = p.2) ∧ ∀ x, x ∉ pairs.map Prod.fst → w.get x = s.w.get x := by
  induction pairs generalizing s with
  | nil => exact ⟨s, s.w, rfl, rfl, by simp, fun _ _ => rfl⟩
  | cons p pairs ih =>
    obtain ⟨hp, hd⟩ := List.nodup_cons.1 hd
    have hfirst : exec (.loadWeight p.1 p.2) s = .next (responding (okResponse 0) { s with w := s.w.set p.1 p.2 }) := rfl
    obtain ⟨t, w, ht, hst, hpairs, hother⟩ := ih (responding (okResponse 0) { s with w := s.w.set p.1 p.2 }) hd
    refine ⟨t, w, (runCommands_cons hfirst).trans ht, hst, List.forall_mem_cons.2 ⟨?_, hpairs⟩, fun x hx => ?_⟩
    · simpa using hother p.1 hp
    · rw [List.map_cons, List.mem_cons, not_or] at hx
      obtain ⟨hne, hx⟩ := hx
      exact (hother x hx).trans (get_set_ne s.w p.2 hne)

/-- Settles O28: the empty table, then the pairs in symbol order, which loads the same pairs. -/
theorem loadTableLoadsExactlyThePairs : Obligations.LoadTableLoadsExactlyThePairs := by
  intro s pairs hd
  have hperm := List.perm_insertionSort (fun a b : Sym × Weight => a.1.toNat ≤ b.1.toNat) pairs
  have hkeys := hperm.map Prod.fst
  have hclear : exec .clearWeights s = .next (responding (okResponse 0) { s with w := WeightTable.zero }) := rfl
  obtain ⟨t, w, ht, hst, hpairs, hother⟩ :=
    runCommands_loadWeights (responding (okResponse 0) { s with w := WeightTable.zero }) (hkeys.nodup_iff.2 hd)
  rw [loadTable_eq, runCommands_cons hclear]
  refine ⟨t, w, ht, hst, fun p hp => hpairs p (hperm.mem_iff.2 hp), fun x hx => ?_⟩
  exact (hother x (mt hkeys.mem_iff.1 hx)).trans (get_zero x)

/-! ### BSEQ_APPEND_STR -/

/-- Groups of bits by their commands' operands N and IMM. -/
def appendBits (parts : List (BitVec 8 × Data)) : List Instr := parts.map fun p => .bseqAppendBits p.1 p.2

theorem keepsTaint_appendBits (parts : List (BitVec 8 × Data)) :
    ∀ i ∈ appendBits parts, i ≠ .bseqClear ∧ i ≠ .softReset := by
  intro i hi
  obtain ⟨p, _, rfl⟩ := List.mem_map.1 hi
  exact ⟨nofun, nofun⟩

/-- The bits of the groups, in order. -/
def partsBits (parts : List (BitVec 8 × Data)) : Bits := (parts.map fun p => immBits p.1 p.2).flatten

/-- A BSEQ_APPEND_BITS that leaves no taint has appended its bits (R153). -/
theorem bseq_of_bseqAppendBits {n : BitVec 8} {imm : Data} {s t : State} (h : exec (.bseqAppendBits n imm) s = .next t)
    (ht : t.bseqTaint = false) : t.bseq = s.bseq ++ immBits n imm := by
  cases exec_cases h with
  | success hu =>
    cases hu with
    | bseqAppendBits => rfl
  | failure hu =>
    cases hu with
    | bseqAppendBits => simp at ht

/-- Appends of which none fails, so that no taint is left, put their bits after the old sequence in order (R156). -/
theorem bseq_of_appendBits {parts : List (BitVec 8 × Data)} {s t : State}
    (h : runCommands (appendBits parts) s = .next t) (ht : t.bseqTaint = false) : t.bseq = s.bseq ++ partsBits parts := by
  induction parts generalizing s with
  | nil =>
    cases h
    simp [partsBits]
  | cons p parts ih =>
    obtain ⟨u, hu, hrun⟩ := runCommands_cons_next h
    have hut : u.bseqTaint = false := by
      by_contra hne
      have htaint := taint_of_runCommands (by simpa using hne) (keepsTaint_appendBits parts) hrun
      exact absurd (htaint.symm.trans ht) (by decide)
    rw [ih hrun, bseq_of_bseqAppendBits hu hut]
    simp [partsBits]

/-- The operands N and IMM of the command that appends a group (R85). -/
def groupOperands (g : Bits) : BitVec 8 × Data := (BitVec.ofNat 8 g.length, BitVec.ofNat 32 (bitsValue g))

/-- A group of at most 32 bits is what its operands append (R85, R153). -/
theorem immBits_groupOperands {g : Bits} (h : g.length ≤ 32) : immBits (groupOperands g).1 (groupOperands g).2 = g := by
  have hlen : (immBits (groupOperands g).1 (groupOperands g).2).length = g.length := by
    rw [immBits_length, groupOperands, BitVec.toNat_ofNat]
    omega
  refine List.ext_getElem hlen fun j hj hg => ?_
  have hj32 : j < 32 := by omega
  simp [immBits, groupOperands, BitVec.getLsbD_ofNat, bitsValue_testBit, hj32, hg]

theorem length_le_of_mem_groupsOf32 {fuel : Nat} {q g : Bits} (h : g ∈ groupsOf32 fuel q) : g.length ≤ 32 := by
  induction fuel generalizing q with
  | zero => simp [groupsOf32] at h
  | succ fuel ih =>
    cases q with
    | nil => simp [groupsOf32] at h
    | cons b q =>
      rcases List.mem_cons.1 h with rfl | h
      · exact List.length_take_le ..
      · exact ih h

/-- The groups are the string, cut (R85). -/
theorem flatten_groupsOf32 {fuel : Nat} {q : Bits} (h : q.length ≤ fuel) : (groupsOf32 fuel q).flatten = q := by
  induction fuel generalizing q with
  | zero => simp_all [groupsOf32]
  | succ fuel ih =>
    cases q with
    | nil => rfl
    | cons b q =>
      have hrest : ((b :: q).drop 32).length ≤ fuel := by
        rw [List.length_drop]
        simp only [List.length_cons] at h ⊢
        omega
      rw [groupsOf32, List.flatten_cons, ih hrest, List.take_append_drop]

theorem bseqAppendStr_eq (q : Bits) : bseqAppendStr q = appendBits ((groupsOf32 q.length q).map groupOperands) := by
  simp [bseqAppendStr, appendBits, groupOperands]

theorem partsBits_groups (q : Bits) : partsBits ((groupsOf32 q.length q).map groupOperands) = q := by
  rw [partsBits, List.map_map]
  have hgroups : (groupsOf32 q.length q).map ((fun p => immBits p.1 p.2) ∘ groupOperands) = groupsOf32 q.length q :=
    (List.map_congr_left fun _ hg => immBits_groupOperands (length_le_of_mem_groupsOf32 hg)).trans (List.map_id _)
  rw [hgroups, flatten_groupsOf32 (Nat.le_refl _)]

/-- Settles O51: the groups' bits are the string, and BSEQ_LEN counts the sequence by the invariants. -/
theorem appendStrAppendsTheString : Obligations.AppendStrAppendsTheString := by
  intro s t q hinv _ hrun ht
  obtain ⟨hlen, _⟩ := (inv_of_runCommands hinv hrun).length
  rw [bseqAppendStr_eq] at hrun
  have hbseq := bseq_of_appendBits hrun ht
  rw [partsBits_groups] at hbseq
  exact ⟨hbseq, by rw [hlen, hbseq, List.length_append]⟩

end Sys2Proof.Proofs

/-! PROOF. The formats of the command words, as claims about the words accepted (30_encoding.md R75, R76, R80, R81). -/

namespace Sys2Proof.Proofs

open Sys2Proof.Machine Sys2Proof.Safety Sys2Proof.Laws

/-! ### A format's words -/

theorem wordOf_noImm (opc : Opcode) (a : BitVec 8) : wordOf opc a 0 = opc ++ a ++ 0#48 := by
  rw [wordOf]
  ext i hi
  grind

theorem wordOf_noOperands (opc : Opcode) : wordOf opc 0 0 = opc ++ 0#56 := by
  rw [wordOf]
  ext i hi
  grind

/-! ### Words accepted and rejected, by the command or the row they name -/

/-- No two rows share an opcode (R79). -/
theorem opcodes_nodup : (opcodeTable.map OpRow.opc).Nodup := by decide

/-- A row is the one found by its opcode. -/
theorem rowFor_eq_of_mem {w : CmdWord} {row : OpRow} (hrow : row ∈ opcodeTable) (hopc : w.extractLsb' 56 8 = row.opc) :
    rowFor w = some row := by
  cases hfound : rowFor w with
  | none =>
    have hne : ¬ (row.opc == opcField w) = true := List.find?_eq_none.1 hfound row hrow
    exact absurd (beq_iff_eq.2 hopc.symm) hne
  | some row' =>
    obtain ⟨hrow', hopc'⟩ := mem_of_rowFor hfound
    rw [List.inj_on_of_nodup_map opcodes_nodup hrow' hrow (hopc'.trans hopc)]

/-- The word of a well-formed command runs it (R80). -/
theorem runs_encode {i : Instr} {s : State} (hwf : WellFormed s.bseqCap i = true) : Runs (encode i) i s :=
  acceptWord_of_ok (decode_eq_ok_iff.2 ⟨rfl, hwf⟩)

/-- The word of a command with an operand out of its static range is subcause 3 (R80, R81). -/
theorem rejected_encode {i : Instr} {s : State} (hwf : ¬ WellFormed s.bseqCap i = true) : Rejected 3 (encode i) s := by
  obtain ⟨row, hrow, hi⟩ := rowFor_encode i
  exact rejected_of_decode (why := .operandOutOfRange) (by simp [decode_of_rowFor_some hrow, hi, hwf])

/-- An assigned opcode with a reserved bit set is subcause 2 (R80). -/
theorem rejected_of_reserved {w : CmdWord} {s : State} {row : OpRow} (hrow : row ∈ opcodeTable)
    (hopc : w.extractLsb' 56 8 = row.opc) (hres : ¬ reservedClear row.format w = true) : Rejected 2 w s := by
  have hfound := rowFor_eq_of_mem hrow hopc
  rw [reservedClear_iff_encode hfound] at hres
  exact rejected_of_decode (why := .reservedNonZero) (by rw [decode_of_rowFor_some hfound, if_neg hres])

/-! ### The formats Z, S and SI, from the row of the opcode map -/

section Formats

variable {opc : Opcode}

theorem zFormat_of_row (mnemonic : String) {i : Instr} (hrow : ⟨mnemonic, opc, .z, fun _ _ => i⟩ ∈ opcodeTable)
    (hwf : ∀ cap, WellFormed cap i = true) : ZFormat opc i := by
  refine fun s => ⟨?_, fun w hopc hres => rejected_of_reserved hrow hopc (by simpa [reservedClear] using hres)⟩
  have hword : encode i = opc ++ 0#56 := (encode_command hrow 0 0).trans (wordOf_noOperands opc)
  exact hword ▸ runs_encode (hwf _)

theorem sFormat_of_row (mnemonic : String) {f : Sym → Instr} (hrow : ⟨mnemonic, opc, .s, fun a _ => f a⟩ ∈ opcodeTable)
    (hwf : ∀ cap sym, WellFormed cap (f sym) = true) : SFormat opc f := by
  refine fun s => ⟨fun sym => ?_, fun w hopc hres => rejected_of_reserved hrow hopc (by simpa [reservedClear] using hres)⟩
  have hword : encode (f sym) = opc ++ sym ++ 0#48 := (encode_command hrow sym 0).trans (wordOf_noImm opc sym)
  exact hword ▸ runs_encode (hwf _ _)

theorem siFormat_of_row (mnemonic : String) {f : Sym → Data → Instr} {range : Data → Prop}
    (hrow : ⟨mnemonic, opc, .si, f⟩ ∈ opcodeTable)
    (hwf : ∀ cap sym imm, WellFormed cap (f sym imm) = true ↔ range imm) : SIFormat opc f range := by
  have hword (sym : Sym) (imm : Data) : encode (f sym imm) = opc ++ sym ++ 0#16 ++ imm := by
    rw [encode_command hrow, wordOf, takesA, takesImm, if_pos rfl, if_pos rfl]
  refine fun s => ⟨fun sym imm hin => ?_, fun w hopc hres => ?_, fun sym imm hout => ?_⟩
  · exact hword sym imm ▸ runs_encode ((hwf _ _ _).2 hin)
  · exact rejected_of_reserved hrow hopc (by simpa [reservedClear] using hres)
  · exact hword sym imm ▸ rejected_encode (mt (hwf _ _ _).1 hout)

end Formats

end Sys2Proof.Proofs

/-! PROOF. The weight table commands (41_weight_table.md R100 to R102). -/

namespace Sys2Proof.Proofs

open Sys2Proof.Machine Sys2Proof.Safety Sys2Proof.Laws

/-- Settles O25: one entry is written, and reads of the table see that entry alone changed. -/
theorem loadWeightSetsOneWeight : Obligations.LoadWeightSetsOneWeight :=
  ⟨siFormat_of_row "LOAD_WEIGHT" (by simp [opcodeTable]) fun _ _ _ => iff_of_true rfl trivial,
    fun s sym imm => ⟨s.w.set sym imm, exec_of_success (.loadWeight sym imm), fun x => get_set s.w sym x imm⟩⟩

/-- Settles O26: the read always succeeds, over the state it read. -/
theorem readWeightReturnsTheWeight : Obligations.ReadWeightReturnsTheWeight :=
  ⟨sFormat_of_row "READ_WEIGHT" (by simp [opcodeTable]) fun _ _ => rfl, fun _ sym => exec_of_success (.readWeight sym)⟩

/-- Settles O27: the table left is the empty one. -/
theorem clearWeightsEmptiesTheTable : Obligations.ClearWeightsEmptiesTheTable :=
  ⟨zFormat_of_row "CLEAR_WEIGHTS" (by simp [opcodeTable]) fun _ => rfl,
    fun _ => ⟨WeightTable.zero, exec_of_success .clearWeights, get_zero⟩⟩

end Sys2Proof.Proofs

/-! PROOF. The leaves of BUILD's tree: which symbols they hold, in what order, and that a table without one fails
(42_tree_builder.md R110, R113, 41_weight_table.md R103). -/

namespace Sys2Proof.Proofs

open Sys2Proof.Machine Sys2Proof.Safety Sys2Proof.Laws

/-! ### The weighted symbols (R103) -/

theorem mem_allSymbols (sym : Sym) : sym ∈ allSymbols :=
  List.mem_map.2 ⟨sym.toNat, List.mem_range.2 sym.isLt, by simp⟩

theorem mem_weighted {w : WeightTable} {sym : Sym} : sym ∈ weighted w ↔ w.get sym ≠ 0 := by
  simp [weighted, mem_allSymbols]

theorem weighted_nodup (w : WeightTable) : (weighted w).Nodup := allSymbols_nodup.filter _

/-- The table paired with the symbols holds each symbol with its own weight. -/
theorem mem_zip_allSymbols {w : WeightTable} {p : Weight × Sym} :
    p ∈ w.entries.zip allSymbols ↔ w.get p.2 = p.1 := by
  rw [List.mem_iff_getElem]
  constructor
  · rintro ⟨i, hi, rfl⟩
    have hi : i < 256 := by simpa [w.size, allSymbols] using hi
    simp [allSymbols, SymTable.get, Nat.mod_eq_of_lt hi]
  · intro h
    have hlen : p.2.toNat < (w.entries.zip allSymbols).length := by simpa [w.size, allSymbols] using p.2.isLt
    exact ⟨p.2.toNat, hlen, Prod.ext (by simpa [SymTable.get] using h) (by simp [allSymbols])⟩

/-- The list L of R110 step 1: each weighted symbol with its weight. -/
theorem mem_sortedLeaves {w : WeightTable} {p : Weight × Sym} :
    p ∈ sortedLeaves w ↔ w.get p.2 = p.1 ∧ p.1 ≠ 0 := by
  rw [(sortedLeaves_perm w).mem_iff, List.mem_filter, mem_zip_allSymbols]
  simp

theorem mem_sortedLeaves_symbols {w : WeightTable} {sym : Sym} :
    sym ∈ (sortedLeaves w).map Prod.snd ↔ w.get sym ≠ 0 := by
  rw [List.mem_map]
  constructor
  · rintro ⟨p, hp, rfl⟩
    obtain ⟨hw, hne⟩ := mem_sortedLeaves.1 hp
    exact hw ▸ hne
  · exact fun h => ⟨(w.get sym, sym), mem_sortedLeaves.2 ⟨rfl, h⟩, rfl⟩

theorem sortedLeaves_eq_nil_iff {w : WeightTable} : sortedLeaves w = [] ↔ ∀ sym, w.get sym = 0 := by
  rw [← List.map_eq_nil_iff (f := Prod.snd), List.eq_nil_iff_forall_not_mem]
  simp only [mem_sortedLeaves_symbols, not_not]

theorem sortedLeaves_length_le (w : WeightTable) : (sortedLeaves w).length ≤ 256 := by
  simpa using length_le_of_nodup (sortedLeaves_symbols_nodup w)

/-! ### The order of the leaves (R110 step 1, D7) -/

/-- The strict form of `leafBefore`: no two leaves share a symbol. -/
def LeafLt (a b : Weight × Sym) : Prop :=
  a.1.toNat < b.1.toNat ∨ (a.1.toNat = b.1.toNat ∧ a.2.toNat < b.2.toNat)

theorem leafBefore_iff {a b : Weight × Sym} :
    leafBefore a b = true ↔ a.1.toNat < b.1.toNat ∨ (a.1.toNat = b.1.toNat ∧ a.2.toNat ≤ b.2.toNat) := by
  simp [leafBefore]

theorem sortedLeaves_pairwise_leafBefore (w : WeightTable) :
    (sortedLeaves w).Pairwise fun a b => leafBefore a b = true := by
  have htotal : Std.Total fun a b : Weight × Sym => leafBefore a b = true :=
    ⟨fun a b => by simp only [leafBefore_iff]; omega⟩
  have htrans : IsTrans (Weight × Sym) fun a b => leafBefore a b = true :=
    ⟨fun a b c => by simp only [leafBefore_iff]; omega⟩
  exact List.pairwise_insertionSort _ _

theorem sortedLeaves_pairwise (w : WeightTable) : (sortedLeaves w).Pairwise LeafLt := by
  have hdistinct := List.pairwise_map.1 (sortedLeaves_symbols_nodup w)
  refine (sortedLeaves_pairwise_leafBefore w).imp₂ (fun a b hle hne => ?_) hdistinct
  have hsym : a.2.toNat ≠ b.2.toNat := mt BitVec.eq_of_toNat_eq hne
  rw [leafBefore_iff] at hle
  rw [LeafLt]
  omega

/-! ### BUILD's loop, from its first forest -/

theorem buildForest_eq (w : WeightTable) : buildForest w =
    if sortedLeaves w = [] then none
    else some (mergeLoop ((sortedLeaves w).length - 1) (initialForest (sortedLeaves w))) := by
  unfold buildForest
  split
  next h => rw [if_pos h]
  next h => rw [if_neg h]

theorem buildForest_eq_none_iff {w : WeightTable} : buildForest w = none ↔ ∀ sym, w.get sym = 0 := by
  rw [← sortedLeaves_eq_nil_iff, buildForest_eq]
  simp

/-- What holds of the first forest and is kept by every merge of two entries holds of BUILD's forest. -/
theorem mergeLoop_induction {P : Forest → Prop} {f : Forest} (n : Nat) (h : P f)
    (hmerge : ∀ {g : Forest} {l r : WsEntry} {rest : List WsEntry}, P g → g.ws = l :: r :: rest → P (mergeStep g)) :
    P (mergeLoop n f) := by
  induction n generalizing f with
  | zero => exact h
  | succ n ih =>
    refine ih ?_
    match hf : f.ws with
    | [] => simpa [mergeStep, hf] using h
    | [_] => simpa [mergeStep, hf] using h
    | l :: r :: rest => exact hmerge h hf

theorem exists_mergeLoop_of_buildForest {w : WeightTable} {f : Forest} (h : buildForest w = some f) :
    ∃ n, f = mergeLoop n (initialForest (sortedLeaves w)) := by
  rw [buildForest_eq] at h
  split at h
  next => cases h
  next => exact ⟨_, (Option.some.inj h).symm⟩

/-- The arena holds a leaf for each of the symbols, in order, and after them internal nodes only. -/
def LeavesFirst (syms : List Sym) (node : List Node) : Prop :=
  ∃ rest, node = syms.map .leaf ++ rest ∧ ∀ e ∈ rest, e.kind = true

theorem LeavesFirst.snoc {syms : List Sym} {node : List Node} (h : LeavesFirst syms node) (l r : NodeIdx) :
    LeavesFirst syms (node ++ [.internal l r]) := by
  obtain ⟨rest, rfl, hrest⟩ := h
  refine ⟨rest ++ [.internal l r], List.append_assoc _ _ _, fun e he => ?_⟩
  rcases List.mem_append.1 he with he | he
  · exact hrest e he
  · rw [List.mem_singleton.1 he]
    rfl

theorem initialForest_node (leaves : List (Weight × Sym)) :
    (initialForest leaves).node = (leaves.map Prod.snd).map .leaf := by
  simp [initialForest]

theorem mergeStep_node {f : Forest} {l r : WsEntry} {rest : List WsEntry} (hf : f.ws = l :: r :: rest) :
    (mergeStep f).node = f.node ++ [.internal l.nd r.nd] := by
  rw [mergeStep_cons_cons hf]

theorem leavesFirst_buildForest {w : WeightTable} {f : Forest} (h : buildForest w = some f) :
    LeavesFirst ((sortedLeaves w).map Prod.snd) f.node := by
  obtain ⟨n, rfl⟩ := exists_mergeLoop_of_buildForest h
  refine mergeLoop_induction (P := fun g => LeavesFirst _ g.node) n ⟨[], by simp [initialForest_node], by simp⟩ ?_
  intro g l r rest hg hws
  rw [mergeStep_node hws]
  exact hg.snoc l.nd r.nd

theorem leafSymbols_eq_nil_of_internal {node : List Node} (h : ∀ e ∈ node, e.kind = true) : leafSymbols node = [] := by
  refine List.filterMap_eq_nil_iff.2 fun e he => ?_
  cases e with
  | leaf sym => cases h _ he
  | internal l r => rfl

/-- The leaves of BUILD's arena are the sorted symbols, in order. -/
theorem leafSymbols_buildForest {w : WeightTable} {f : Forest} (h : buildForest w = some f) :
    leafSymbols f.node = (sortedLeaves w).map Prod.snd := by
  obtain ⟨rest, hnode, hrest⟩ := leavesFirst_buildForest h
  rw [hnode, leafSymbols_append, leafSymbols_map_leaf, leafSymbols_eq_nil_of_internal hrest, List.append_nil]

theorem mem_leafSymbols_buildForest {w : WeightTable} {f : Forest} (h : buildForest w = some f) (sym : Sym) :
    sym ∈ leafSymbols f.node ↔ w.get sym ≠ 0 := by
  rw [leafSymbols_buildForest h, mem_sortedLeaves_symbols]

/-- 2n - 1 nodes for n weighted symbols (R113). -/
theorem buildForest_node_length {w : WeightTable} {f : Forest} (h : buildForest w = some f) :
    f.node.length + 1 = 2 * (weighted w).length := by
  have htree := (buildForest_isTree h).1
  have hperm : (leafSymbols f.node).Perm (weighted w) :=
    (List.perm_ext_iff_of_nodup htree.distinctLeaves (weighted_nodup w)).2 fun sym => by
      rw [mem_leafSymbols_buildForest h, mem_weighted]
  rw [htree.count, hperm.length_eq]

/-! ### How BUILD ends -/

theorem exec_build_of_weighted {s : State} (h : ∃ sym, s.w.get sym ≠ 0) : ∃ f, buildForest s.w = some f ∧
    exec .build s = .next (responding (okResponse 0)
      { discardTree s with node := f.node, nodeCount := f.count, root := rootOf f, treeValid := true }) := by
  cases hf : buildForest s.w with
  | none =>
    obtain ⟨sym, hsym⟩ := h
    exact absurd (buildForest_eq_none_iff.1 hf sym) hsym
  | some f => exact ⟨f, rfl, exec_of_success (.build hf)⟩

/-- Settles O29: BUILD fails exactly on a table without a weighted symbol, over the state with the tree discarded. -/
theorem buildOfAnEmptyTableFails : Obligations.BuildOfAnEmptyTableFails := by
  refine ⟨zFormat_of_row "BUILD" (by simp [opcodeTable]) fun _ => rfl, fun s h => ⟨LookupTable.cleared, get_cleared, ?_⟩⟩
  exact exec_of_failure (.build (buildForest_eq_none_iff.2 h))

/-- Settles O30: the merged forest is a tree, and its leaves are those of the sorted list. -/
theorem buildMakesATreeOfTheWeightedSymbols : Obligations.BuildMakesATreeOfTheWeightedSymbols := by
  intro s h
  obtain ⟨f, hf, hexec⟩ := exec_build_of_weighted h
  obtain ⟨htree, hcount⟩ := buildForest_isTree hf
  exact ⟨f.node, f.count, rootOf f, LookupTable.cleared, hexec, get_cleared, htree, hcount,
    mem_leafSymbols_buildForest hf, buildForest_node_length hf⟩

/-- Settles O31: the leaves are the sorted list's, and every merge appends an internal node. -/
theorem buildOrdersLeavesByWeightThenSymbol : Obligations.BuildOrdersLeavesByWeightThenSymbol := by
  intro s t h ht
  obtain ⟨f, hf, hexec⟩ := exec_build_of_weighted h
  cases hexec.symm.trans ht
  obtain ⟨rest, hnode, hrest⟩ := leavesFirst_buildForest hf
  refine ⟨(sortedLeaves s.w).map Prod.snd, rest, hnode, hrest, fun _ => mem_sortedLeaves_symbols, ?_⟩
  refine List.pairwise_map.2 ((sortedLeaves_pairwise s.w).imp_of_mem fun {a b} ha hb hab => ?_)
  rw [(mem_sortedLeaves.1 ha).1, (mem_sortedLeaves.1 hb).1]
  exact hab

end Sys2Proof.Proofs

/-! PROOF. The working set holds true sums in order, and each merge takes its two first entries (42_tree_builder.md R110 step 2,
R112, R114, D7, D8). -/

namespace Sys2Proof.Proofs

open Sys2Proof.Machine Sys2Proof.Safety Sys2Proof.Laws

/-! ### The weights below the nodes, as the arena grows -/

theorem nodeWeights_snoc_leaf (w : WeightTable) (node : List Node) (sym : Sym) :
    nodeWeights w (node ++ [.leaf sym]) = nodeWeights w node ++ [(w.get sym).toNat] := by
  simp [nodeWeights]

theorem nodeWeights_snoc_internal (w : WeightTable) (node : List Node) (l r : NodeIdx) :
    nodeWeights w (node ++ [.internal l r]) = nodeWeights w node ++
      [(nodeWeights w node).getD l.toNat 0 + (nodeWeights w node).getD r.toNat 0] := by
  simp [nodeWeights]

theorem nodeWeights_length (w : WeightTable) (node : List Node) : (nodeWeights w node).length = node.length := by
  induction node using List.reverseRecOn with
  | nil => rfl
  | append_singleton node e ih =>
    cases e with
    | leaf sym => simp [nodeWeights_snoc_leaf, ih]
    | internal l r => simp [nodeWeights_snoc_internal, ih]

theorem nodeWeights_map_leaf (w : WeightTable) (syms : List Sym) :
    nodeWeights w (syms.map .leaf) = syms.map fun sym => (w.get sym).toNat := by
  induction syms using List.reverseRecOn with
  | nil => rfl
  | append_singleton syms sym ih => simp [nodeWeights_snoc_leaf, ih]

section Snoc

variable {w : WeightTable} {node : List Node} {a b k : Nat} {l r : NodeIdx}

theorem nodeWeights_getElem?_snoc (ha : a < node.length) :
    (nodeWeights w (node ++ [.internal l r]))[a]? = (nodeWeights w node)[a]? := by
  rw [nodeWeights_snoc_internal, List.getElem?_append_left (by rwa [nodeWeights_length])]

theorem nodeWeights_getElem?_new : (nodeWeights w (node ++ [.internal l r]))[node.length]? =
    some ((nodeWeights w node).getD l.toNat 0 + (nodeWeights w node).getD r.toNat 0) := by
  rw [nodeWeights_snoc_internal, ← nodeWeights_length w node, List.getElem?_concat_length]

theorem isInternal_snoc (ha : a < node.length) : isInternal (node ++ [.internal l r]) a = isInternal node a := by
  rw [isInternal, isInternal, List.getElem?_append_left ha]

theorem isInternal_new : isInternal (node ++ [.internal l r]) node.length = true := by
  rw [isInternal, List.getElem?_concat_length]
  rfl

theorem precedes_snoc_iff (ha : a < node.length) (hb : b < node.length) :
    Precedes w (node ++ [.internal l r]) a b ↔ Precedes w node a b := by
  simp only [Precedes, List.getD_eq_getElem?_getD, nodeWeights_getElem?_snoc ha, nodeWeights_getElem?_snoc hb,
    isInternal_snoc ha, isInternal_snoc hb]

theorem available_snoc_iff (hk : k ≤ node.length) : Available (node ++ [.internal l r]) k a ↔ Available node k a := by
  have same (p : Nat) (hp : p < k) : (node ++ [.internal l r])[p]? = node[p]? :=
    List.getElem?_append_left (Nat.lt_of_lt_of_le hp hk)
  refine and_congr_right fun _ => forall_congr' fun p => ?_
  exact forall₂_congr fun _ _ => forall_congr' fun hp => by rw [same p hp]

end Snoc

/-! ### The working set's order -/

/-- Insertion keeps any order of entries that puts the lighter first and the new entry before those of its own weight. -/
theorem pairwise_insertWs {R : WsEntry → WsEntry → Prop} {e : WsEntry} {ws : List WsEntry} (h : ws.Pairwise R)
    (weights : ws.Pairwise fun a b => a.wt.toNat ≤ b.wt.toNat) (before : ∀ x ∈ ws, e.wt.toNat ≤ x.wt.toNat → R e x)
    (after : ∀ x ∈ ws, x.wt.toNat < e.wt.toNat → R x e) : (insertWs e ws).Pairwise R := by
  induction ws with
  | nil => exact List.pairwise_singleton _ _
  | cons x ws ih =>
    rw [insertWs]
    obtain ⟨hx, hws⟩ := List.pairwise_cons.1 h
    obtain ⟨hle, hles⟩ := List.pairwise_cons.1 weights
    obtain ⟨hbx, hbs⟩ := List.forall_mem_cons.1 before
    obtain ⟨hax, has⟩ := List.forall_mem_cons.1 after
    split
    next hex =>
      refine List.pairwise_cons.2 ⟨List.forall_mem_cons.2 ⟨hbx hex, fun y hy => ?_⟩, h⟩
      exact hbs y hy (Nat.le_trans hex (hle y hy))
    next hex =>
      refine List.pairwise_cons.2 ⟨fun y hy => ?_, ih hws hles hbs has⟩
      rcases List.mem_cons.1 ((insertWs_perm e ws).mem_iff.1 hy) with rfl | hy
      · exact hax (Nat.lt_of_not_le hex)
      · exact hx y hy

/-- The sum of the weights of a working set. -/
def wsTotal (ws : List WsEntry) : Nat := (ws.map fun e => e.wt.toNat).sum

@[simp] theorem wsTotal_cons (e : WsEntry) (ws : List WsEntry) : wsTotal (e :: ws) = e.wt.toNat + wsTotal ws := by
  simp [wsTotal]

@[simp] theorem wsTotal_insertWs (e : WsEntry) (ws : List WsEntry) : wsTotal (insertWs e ws) = e.wt.toNat + wsTotal ws := by
  rw [← wsTotal_cons]
  exact ((insertWs_perm e ws).map _).sum_eq

/-! ### What every merge keeps of the order -/

/-- BUILD under way on the table `w`: the working set's weights are the true sums below its nodes, no sum of them wraps, and
its entries stand in order (R112, R114). -/
structure OrderedForest (w : WeightTable) (f : Forest) : Prop extends ForestInv f where
  noWrap : wsTotal f.ws < 2 ^ 40
  trueSum : ∀ e ∈ f.ws, (nodeWeights w f.node)[e.nd.toNat]? = some e.wt.toNat
  sorted : f.ws.Pairwise fun a b => Precedes w f.node a.nd.toNat b.nd.toNat

theorem wsTotal_initialForest_lt {leaves : List (Weight × Sym)} (h : leaves.length ≤ 256) :
    wsTotal (initialForest leaves).ws < 2 ^ 40 := by
  have hlen : ((initialForest leaves).ws.map fun e => e.wt.toNat).length = leaves.length := by simp [initialForest]
  have hsum := List.sum_le_card_nsmul ((initialForest leaves).ws.map fun e => e.wt.toNat) (2 ^ 32 - 1) (by
    simp only [initialForest, List.map_map, List.mem_map]
    rintro _ ⟨p, _, rfl⟩
    have := p.1.1.isLt
    simp only [Function.comp_apply, BitVec.toNat_setWidth]
    omega)
  rw [hlen, smul_eq_mul] at hsum
  rw [wsTotal]
  omega

theorem nodeWeights_initialForest (w : WeightTable) : nodeWeights w (initialForest (sortedLeaves w)).node =
    (sortedLeaves w).map fun p => p.1.toNat := by
  rw [initialForest_node, nodeWeights_map_leaf, List.map_map]
  exact List.map_congr_left fun p hp => congrArg BitVec.toNat (mem_sortedLeaves.1 hp).1

theorem isInternal_initialForest (leaves : List (Weight × Sym)) (i : Nat) :
    isInternal (initialForest leaves).node i = false := by
  cases hi : leaves[i]? <;> simp [isInternal, initialForest, hi, Node.kind]

/-- Entry `i` of the first working set is that of leaf `i`. -/
theorem initialForest_ws_getElem {leaves : List (Weight × Sym)} {i : Nat} (h : leaves.length ≤ 256)
    (hi : i < leaves.length) (hi' : i < (initialForest leaves).ws.length) :
    (initialForest leaves).ws[i].wt.toNat = leaves[i].1.toNat ∧ (initialForest leaves).ws[i].nd.toNat = i := by
  have hwt : leaves[i].1.toNat < 2 ^ 40 := by omega
  have hnd : i < 2 ^ 9 := by omega
  simpa [initialForest] using And.intro hwt hnd

theorem trueSum_initialForest (w : WeightTable) : ∀ e ∈ (initialForest (sortedLeaves w)).ws,
    (nodeWeights w (initialForest (sortedLeaves w)).node)[e.nd.toNat]? = some e.wt.toNat := by
  rw [List.forall_mem_iff_getElem]
  intro i hi
  have hi' : i < (sortedLeaves w).length := by simpa [initialForest] using hi
  obtain ⟨hwt, hnd⟩ := initialForest_ws_getElem (sortedLeaves_length_le w) hi' hi
  rw [hwt, hnd, nodeWeights_initialForest]
  simp [hi']

/-- Leaves stand in the order of weight and symbol, so of equal weight in arena order (D7). -/
theorem sorted_initialForest (w : WeightTable) : (initialForest (sortedLeaves w)).ws.Pairwise fun a b =>
    Precedes w (initialForest (sortedLeaves w)).node a.nd.toNat b.nd.toNat := by
  rw [List.pairwise_iff_getElem]
  intro i j hi hj hij
  have hi' : i < (sortedLeaves w).length := by simpa [initialForest] using hi
  have hj' : j < (sortedLeaves w).length := by simpa [initialForest] using hj
  have hlen := sortedLeaves_length_le w
  have hlt : LeafLt (sortedLeaves w)[i] (sortedLeaves w)[j] :=
    List.pairwise_iff_getElem.1 (sortedLeaves_pairwise w) i j hi' hj' hij
  rw [(initialForest_ws_getElem hlen hi' hi).2, (initialForest_ws_getElem hlen hj' hj).2, Precedes,
    nodeWeights_initialForest]
  simp only [isInternal_initialForest, List.getD_eq_getElem?_getD, List.getElem?_map, List.getElem?_eq_getElem hi',
    List.getElem?_eq_getElem hj', Option.map_some, Option.getD_some]
  exact hlt.imp_right fun h => ⟨h.1, .inr ⟨trivial, trivial, hij⟩⟩

theorem orderedForest_initialForest (w : WeightTable) : OrderedForest w (initialForest (sortedLeaves w)) where
  toForestInv := forestInv_initialForest (sortedLeaves_symbols_nodup w)
  noWrap := wsTotal_initialForest_lt (sortedLeaves_length_le w)
  trueSum := trueSum_initialForest w
  sorted := sorted_initialForest w

section Merge

variable {w : WeightTable} {f : Forest} {l r : WsEntry} {rest : List WsEntry}

theorem OrderedForest.weight {e : WsEntry} (h : OrderedForest w f) (he : e ∈ f.ws) :
    (nodeWeights w f.node).getD e.nd.toNat 0 = e.wt.toNat := by
  rw [List.getD_eq_getElem?_getD, h.trueSum e he, Option.getD_some]

theorem OrderedForest.nd_lt {e : WsEntry} (h : OrderedForest w f) (he : e ∈ f.ws) : e.nd.toNat < f.node.length :=
  h.inArena _ (List.mem_map_of_mem he)

/-- The order by weight and tie rules is an order by weight. -/
theorem OrderedForest.weights (h : OrderedForest w f) : f.ws.Pairwise fun a b => a.wt.toNat ≤ b.wt.toNat := by
  refine h.sorted.imp_of_mem fun ha hb hab => ?_
  rw [Precedes, h.weight ha, h.weight hb] at hab
  omega

/-- The 40-bit addition of a merge does not wrap (R114). -/
theorem merged_weight (h : OrderedForest w f) (hf : f.ws = l :: r :: rest) :
    (l.wt + r.wt).toNat = l.wt.toNat + r.wt.toNat := by
  have := h.noWrap
  simp only [hf, wsTotal_cons] at this
  rw [BitVec.toNat_add]
  omega

/-- The node index of a merge names the new node (R113). -/
theorem merged_nd (h : ForestInv f) (hf : f.ws = l :: r :: rest) : (f.count.setWidth 9).toNat = f.node.length := by
  have := h.length_le
  simp only [hf, List.length_cons] at this
  rw [BitVec.toNat_setWidth, h.count]
  omega

/-- The entry that a merge puts back (R110 step 2). -/
def mergedEntry (f : Forest) (l r : WsEntry) : WsEntry := ⟨l.wt + r.wt, f.count.setWidth 9⟩

theorem mergeStep_ws (hf : f.ws = l :: r :: rest) : (mergeStep f).ws = insertWs (mergedEntry f l r) rest := by
  rw [mergeStep_cons_cons hf, mergedEntry]

/-- A merge's entry, and every entry that it leaves, has the true sum below its node (R114). -/
theorem trueSum_mergeStep (h : OrderedForest w f) (hf : f.ws = l :: r :: rest) :
    ∀ e ∈ mergedEntry f l r :: rest, (nodeWeights w (mergeStep f).node)[e.nd.toNat]? = some e.wt.toNat := by
  have hmem : l ∈ f.ws ∧ r ∈ f.ws ∧ ∀ e ∈ rest, e ∈ f.ws := by simp +contextual [hf]
  obtain ⟨hl, hr, hrest⟩ := hmem
  rw [mergeStep_node hf]
  refine List.forall_mem_cons.2 ⟨?_, fun e he => ?_⟩
  · rw [mergedEntry, merged_weight h hf, merged_nd h.toForestInv hf, nodeWeights_getElem?_new, h.weight hl, h.weight hr]
  · rw [nodeWeights_getElem?_snoc (h.nd_lt (hrest e he)), h.trueSum e (hrest e he)]

/-- The merged entry goes before every entry of equal weight, as D8 has it, and the others keep their order. -/
theorem sorted_mergeStep (h : OrderedForest w f) (hf : f.ws = l :: r :: rest) :
    (mergeStep f).ws.Pairwise fun a b => Precedes w (mergeStep f).node a.nd.toNat b.nd.toNat := by
  have hin : ∀ e ∈ rest, e.nd.toNat < f.node.length := fun e he => h.nd_lt (by simp [hf, he])
  have hsum := trueSum_mergeStep h hf
  have hweight : ∀ e ∈ mergedEntry f l r :: rest, (nodeWeights w (mergeStep f).node).getD e.nd.toNat 0 = e.wt.toNat :=
    fun e he => by rw [List.getD_eq_getElem?_getD, hsum e he, Option.getD_some]
  obtain ⟨hnew, hold⟩ := List.forall_mem_cons.1 hweight
  have hsorted := h.sorted
  have hweights := h.weights
  rw [hf] at hsorted hweights
  rw [mergeStep_ws hf]
  refine pairwise_insertWs ?_ hweights.of_cons.of_cons (fun x hx hle => ?_) fun x hx hlt => ?_
  · refine hsorted.of_cons.of_cons.imp_of_mem fun ha hb hab => ?_
    rw [mergeStep_node hf]
    exact (precedes_snoc_iff (hin _ ha) (hin _ hb)).2 hab
  · have hnd : (mergedEntry f l r).nd.toNat = f.node.length := merged_nd h.toForestInv hf
    have hinternal : isInternal (mergeStep f).node (mergedEntry f l r).nd.toNat = true := by
      rw [hnd, mergeStep_node hf, isInternal_new]
    rw [Precedes, hnew, hold x hx]
    exact (Nat.lt_or_eq_of_le hle).imp_right fun heq => ⟨heq, .inl ⟨hinternal, fun _ => hnd ▸ hin x hx⟩⟩
  · rw [Precedes, hnew, hold x hx]
    exact .inl hlt

theorem orderedForest_mergeStep (h : OrderedForest w f) (hf : f.ws = l :: r :: rest) : OrderedForest w (mergeStep f) where
  toForestInv := forestInv_mergeStep h.toForestInv
  noWrap := by
    have htotal := h.noWrap
    have hnew : (mergedEntry f l r).wt.toNat = l.wt.toNat + r.wt.toNat := merged_weight h hf
    rw [hf, wsTotal_cons, wsTotal_cons] at htotal
    rw [mergeStep_ws hf, wsTotal_insertWs, hnew]
    omega
  trueSum e he := trueSum_mergeStep h hf e ((insertWs_perm _ rest).mem_iff.1 (mergeStep_ws hf ▸ he))
  sorted := sorted_mergeStep h hf

end Merge

theorem orderedForest_mergeLoop (w : WeightTable) (n : Nat) :
    OrderedForest w (mergeLoop n (initialForest (sortedLeaves w))) :=
  mergeLoop_induction n (orderedForest_initialForest w) orderedForest_mergeStep

/-- Settles O33: the working set is ordered at first, and every merge keeps it so. -/
theorem workingSetHoldsTrueSumsInOrder : Obligations.WorkingSetHoldsTrueSumsInOrder := by
  rintro w k f rfl
  have h := orderedForest_mergeLoop w k
  exact ⟨h.trueSum, h.weights.and h.sorted⟩

/-! ### The two first entries -/

/-- Node `k` merges the nodes `l` and `r`, the two first in the working set at its merge (R110 step 2). -/
def MergesFirstTwo (w : WeightTable) (node : List Node) (k l r : Nat) : Prop :=
  Available node k l ∧ Available node k r ∧ Precedes w node l r ∧
    ∀ j, Available node k j → j = l ∨ j = r ∨ Precedes w node r j

/-- Every internal node merges the two first entries of the working set at its merge. -/
def MergesInOrder (w : WeightTable) (node : List Node) : Prop :=
  ∀ (k : Nat) (l r : NodeIdx), node[k]? = some (.internal l r) → MergesFirstTwo w node k l.toNat r.toNat

theorem childSlots_eq_zero_iff {node : List Node} {c : Nat} : childSlots node c = 0 ↔
    ∀ (p : Nat) (l r : NodeIdx), node[p]? = some (.internal l r) → l.toNat ≠ c ∧ r.toNat ≠ c := by
  constructor
  · intro h p l r hp
    have hslots := slotsOf_le_childSlots c hp
    rw [h, slotsOf] at hslots
    constructor <;> intro heq <;> simp [heq] at hslots
  · intro h
    simp only [childSlots, List.sum_eq_zero_iff, List.mem_map, forall_exists_index, and_imp]
    rintro _ e he rfl
    obtain ⟨p, hp⟩ := List.mem_iff_getElem?.1 he
    cases e with
    | leaf sym => rfl
    | internal l r =>
      obtain ⟨hl, hr⟩ := h p l r hp
      simp [slotsOf, hl, hr]

/-- What is available for the next merge is the working set: each node is named once, by a child field or by an entry (R112). -/
theorem available_length_iff {f : Forest} (h : ForestInv f) {j : Nat} :
    Available f.node f.node.length j ↔ j ∈ wsNodes f.ws := by
  have hfree : Available f.node f.node.length j ↔ j < f.node.length ∧ childSlots f.node j = 0 := by
    rw [childSlots_eq_zero_iff]
    refine and_congr_right fun _ => forall_congr' fun p => forall₂_congr fun l r => ?_
    exact ⟨fun hp he => hp (List.getElem?_eq_some_iff.1 he).1 he, fun hp _ => hp⟩
  rw [hfree, ← List.count_pos_iff]
  constructor
  · rintro ⟨hj, hzero⟩
    have := h.onePlace j hj
    omega
  · intro hpos
    have hj := h.inArena j (List.count_pos_iff.1 hpos)
    have := h.onePlace j hj
    omega

section Merge

variable {w : WeightTable} {f : Forest} {l r : WsEntry} {rest : List WsEntry}

/-- A merge speaks of older nodes only, so it stays what it was as the arena grows. -/
theorem MergesFirstTwo.snoc {node : List Node} {k a b : Nat} (h : MergesFirstTwo w node k a b) (hk : k < node.length)
    (c d : NodeIdx) : MergesFirstTwo w (node ++ [.internal c d]) k a b := by
  obtain ⟨ha, hb, hab, hfirst⟩ := h
  have ha' := Nat.lt_trans ha.1 hk
  have hb' := Nat.lt_trans hb.1 hk
  refine ⟨(available_snoc_iff hk.le).2 ha, (available_snoc_iff hk.le).2 hb, (precedes_snoc_iff ha' hb').2 hab, ?_⟩
  intro j hj
  rw [available_snoc_iff hk.le] at hj
  rw [precedes_snoc_iff hb' (Nat.lt_trans hj.1 hk)]
  exact hfirst j hj

theorem mergesFirstTwo_new (h : OrderedForest w f) (hf : f.ws = l :: r :: rest) :
    MergesFirstTwo w (f.node ++ [.internal l.nd r.nd]) f.node.length l.nd.toNat r.nd.toNat := by
  have havail (j : Nat) : Available (f.node ++ [.internal l.nd r.nd]) f.node.length j ↔
      j = l.nd.toNat ∨ j = r.nd.toNat ∨ j ∈ wsNodes rest := by
    rw [available_snoc_iff (Nat.le_refl _), available_length_iff h.toForestInv, hf]
    simp [wsNodes]
  obtain ⟨hl, hr, hrest⟩ := inArena_cons_cons h.toForestInv hf
  have hsorted := h.sorted
  rw [hf, List.pairwise_cons, List.pairwise_cons] at hsorted
  obtain ⟨hfirst, hsecond, _⟩ := hsorted
  refine ⟨(havail _).2 (.inl rfl), (havail _).2 (.inr (.inl rfl)), ?_, fun j hj => ?_⟩
  · exact (precedes_snoc_iff hl hr).2 (hfirst r List.mem_cons_self)
  · refine ((havail j).1 hj).imp_right (Or.imp_right fun hj => ?_)
    rw [precedes_snoc_iff hr (hrest j hj)]
    obtain ⟨x, hx, rfl⟩ := List.mem_map.1 hj
    exact hsecond x hx

theorem mergesInOrder_mergeStep (h : OrderedForest w f) (hm : MergesInOrder w f.node) (hf : f.ws = l :: r :: rest) :
    MergesInOrder w (mergeStep f).node := by
  rw [mergeStep_node hf]
  intro k a b hk
  rcases Nat.lt_or_ge k f.node.length with hlt | hge
  · rw [List.getElem?_append_left hlt] at hk
    exact (hm k a b hk).snoc hlt _ _
  · have hlen := (List.getElem?_eq_some_iff.1 hk).1
    rw [List.length_append, List.length_singleton] at hlen
    obtain rfl : k = f.node.length := by omega
    rw [List.getElem?_concat_length] at hk
    cases hk
    exact mergesFirstTwo_new h hf

end Merge

theorem mergesInOrder_mergeLoop (w : WeightTable) (n : Nat) :
    MergesInOrder w (mergeLoop n (initialForest (sortedLeaves w))).node := by
  have hfirst : MergesInOrder w (initialForest (sortedLeaves w)).node := by
    intro k l r hk
    simp [initialForest_node] at hk
  have hloop := mergeLoop_induction (P := fun f => OrderedForest w f ∧ MergesInOrder w f.node) n
    ⟨orderedForest_initialForest w, hfirst⟩
    fun ⟨h, hm⟩ hf => ⟨orderedForest_mergeStep h hf, mergesInOrder_mergeStep h hm hf⟩
  exact hloop.2

/-- Settles O32: a forest's working set is what is available for its next merge, in order, and later merges do not change what
was available for an earlier one. -/
theorem buildMergesTheTwoFirstEntries : Obligations.BuildMergesTheTwoFirstEntries := by
  intro s t k l r ht hk
  cases exec_cases ht with
  | success hu =>
    cases hu with
    | build hf =>
      obtain ⟨n, rfl⟩ := exists_mergeLoop_of_buildForest hf
      exact mergesInOrder_mergeLoop s.w n k l r hk
  | failure hu =>
    cases hu with
    | build => simp at hk

end Sys2Proof.Proofs

/-! PROOF. BUILD and GEN_TABLE depend on the weights alone, and READ_NODE's views (42_tree_builder.md R111, R116). -/

namespace Sys2Proof.Proofs

open Sys2Proof.Machine Sys2Proof.Safety Sys2Proof.Laws

/-! ### A function of the weights alone (R116) -/

/-- The two states hold the same tree and the same lookup table. -/
def SameTree (s t : State) : Prop :=
  s.node = t.node ∧ s.nodeCount = t.nodeCount ∧ s.root = t.root ∧ s.treeValid = t.treeValid ∧ s.lt = t.lt

section Determinism

variable {s s' t t' : State}

/-- BUILD of equal weights succeeds or fails alike, whatever else the states hold. -/
theorem sameTree_of_exec_build (hw : s.w = s'.w) (h : exec .build s = .next t) (h' : exec .build s' = .next t') :
    SameTree t t' := by
  cases hf : buildForest s.w with
  | none =>
    cases (exec_of_failure (.build hf)).symm.trans h
    cases (exec_of_failure (.build (hw ▸ hf))).symm.trans h'
    exact ⟨rfl, rfl, rfl, rfl, rfl⟩
  | some f =>
    cases (exec_of_success (.build hf)).symm.trans h
    cases (exec_of_success (.build (hw ▸ hf))).symm.trans h'
    exact ⟨rfl, rfl, rfl, rfl, rfl⟩

theorem sameTree_of_exec_genTable (hs : SameTree s s') (h : exec .genTable s = .next t)
    (h' : exec .genTable s' = .next t') : SameTree t t' := by
  obtain ⟨hnode, hcount, hroot, hvalid, hlt⟩ := hs
  cases hv : s.treeValid with
  | false =>
    cases (exec_of_failure (.genTable hv)).symm.trans h
    cases (exec_of_failure (.genTable (hvalid ▸ hv))).symm.trans h'
    exact ⟨hnode, hcount, hroot, hvalid, hlt⟩
  | true =>
    cases (exec_of_success (.genTable hv)).symm.trans h
    cases (exec_of_success (.genTable (hvalid ▸ hv))).symm.trans h'
    exact ⟨hnode, hcount, hroot, hvalid, congrArg₂ tableOf hnode hroot⟩

end Determinism

/-- Settles O34: BUILD overwrites the tree and the table by a function of the weights, and GEN_TABLE reads the tree alone. -/
theorem equalWeightsGiveEqualTreesAndCodes : Obligations.EqualWeightsGiveEqualTreesAndCodes := by
  intro s t s' t' hw h h'
  obtain ⟨u, hbuild, hrun⟩ := runCommands_cons_next h
  obtain ⟨u', hbuild', hrun'⟩ := runCommands_cons_next h'
  obtain ⟨v, hgen, hend⟩ := runCommands_cons_next hrun
  obtain ⟨v', hgen', hend'⟩ := runCommands_cons_next hrun'
  cases hend
  cases hend'
  exact sameTree_of_exec_genTable (sameTree_of_exec_build hw hbuild hbuild') hgen hgen'

/-! ### READ_NODE (R111) -/

theorem wordOf_noA (opc : Opcode) (imm : Data) : wordOf opc 0 imm = opc ++ 0#24 ++ imm := by
  rw [wordOf]
  ext i hi
  grind

/-- The format I, from the row of the opcode map (R75, R81). -/
theorem iFormat_of_row {opc : Opcode} (mnemonic : String) {f : Data → Instr} {range : BseqCap → Data → Prop}
    (hrow : ⟨mnemonic, opc, .i, fun _ imm => f imm⟩ ∈ opcodeTable)
    (hwf : ∀ cap imm, WellFormed cap (f imm) = true ↔ range cap imm) : IFormat opc f range := by
  have hword (imm : Data) : encode (f imm) = opc ++ 0#24 ++ imm :=
    (encode_command hrow 0 imm).trans (wordOf_noA opc imm)
  refine fun s => ⟨fun imm hin => ?_, fun w hopc hres => ?_, fun imm hout => ?_⟩
  · exact hword imm ▸ runs_encode ((hwf _ _).2 hin)
  · exact rejected_of_reserved hrow hopc (by simpa [reservedClear] using hres)
  · exact hword imm ▸ rejected_encode (mt (hwf _ _).1 hout)

/-- The view of a leaf: its symbol below zeros. -/
theorem nodeWord_leaf (sym : Sym) : (nodeWord (.leaf sym)).extractLsb' 8 24 = 0 ∧
    (nodeWord (.leaf sym)).extractLsb' 0 8 = sym := by
  have hword : nodeWord (.leaf sym) = sym.setWidth 32 := rfl
  rw [hword]
  constructor
  · ext i hi
    grind
  · ext i hi
    grind

/-- The fields of a word laid out as the view of an internal node is. -/
theorem internalWord_fields (kind : BitVec 1) (zeros : BitVec 13) (r l : NodeIdx) :
    (kind ++ zeros ++ r ++ l).getLsbD 31 = kind.getLsbD 0 ∧ (kind ++ zeros ++ r ++ l).extractLsb' 18 13 = zeros ∧
      (kind ++ zeros ++ r ++ l).extractLsb' 9 9 = r ∧ (kind ++ zeros ++ r ++ l).extractLsb' 0 9 = l := by
  refine ⟨by grind, ?_, ?_, ?_⟩
  all_goals
    ext i hi
    grind

/-- The view of an internal node: bit 31, zeros, RIGHT and LEFT. -/
theorem nodeWord_internal (l r : NodeIdx) : (nodeWord (.internal l r)).getLsbD 31 = true ∧
    (nodeWord (.internal l r)).extractLsb' 18 13 = 0 ∧
    (nodeWord (.internal l r)).extractLsb' 9 9 = r ∧ (nodeWord (.internal l r)).extractLsb' 0 9 = l :=
  internalWord_fields 1#1 0#13 r l

/-- Settles O35: an index below NODE_COUNT that has an entry reads it, and one at or above NODE_COUNT fails. -/
theorem readNodeReturnsTheNode : Obligations.ReadNodeReturnsTheNode := by
  refine ⟨iFormat_of_row "READ_NODE" (by simp [opcodeTable]) fun cap imm => ?_, fun s imm => ⟨fun hn => ?_, ?_, ?_⟩⟩
  · simp [WellFormed, Nat.lt_succ_iff]
  · exact exec_of_failure (.readNode (.inl hn))
  · exact fun sym hn he => ⟨nodeWord (.leaf sym), exec_of_success (.readNode hn he), nodeWord_leaf sym⟩
  · exact fun l r hn he => ⟨nodeWord (.internal l r), exec_of_success (.readNode hn he), nodeWord_internal l r⟩

end Sys2Proof.Proofs

/-! PROOF. The code-table generator's commands and the codes of a table (43_code_table.md R130 to R134). -/

namespace Sys2Proof.Proofs

open Sys2Proof.Machine Sys2Proof.Safety Sys2Proof.Laws

/-! ### GEN_TABLE (R130) -/

/-- Settles O36: the traversal's table has the codes of the tree held, and an entry that is no code is a cleared one. -/
theorem genTableRecordsEveryPath : Obligations.GenTableRecordsEveryPath := by
  refine ⟨zFormat_of_row "GEN_TABLE" (by simp [opcodeTable]) fun _ => rfl, fun s hv => exec_of_failure (.genTable hv),
    fun s hs hv => ⟨tableOf s.node s.root, exec_of_success (.genTable hv), tableOf_get_iff (hs.tree hv), ?_⟩⟩
  intro sym hno
  exact (tableOf_get s.node s.root sym).resolve_right fun ⟨c, hc, _⟩ => hno ⟨c, hc⟩

/-! ### The depth of a tree (R131) -/

theorem countP_kind_add_leafSymbols (node : List Node) :
    node.countP Node.kind + (leafSymbols node).length = node.length := by
  induction node with
  | nil => rfl
  | cons e node ih =>
    cases e with
    | leaf sym =>
      have hleaves : leafSymbols (.leaf sym :: node) = sym :: leafSymbols node := rfl
      rw [List.countP_cons_of_neg (by simp [Node.kind]), hleaves, List.length_cons, List.length_cons]
      omega
    | internal l r =>
      have hleaves : leafSymbols (.internal l r :: node) = leafSymbols node := rfl
      rw [List.countP_cons_of_pos rfl, hleaves, List.length_cons]
      omega

/-- An internal node is one more of them than there are at or below any smaller index. -/
theorem countP_kind_take_lt {node : List Node} {i m : Nat} {l r : NodeIdx} (hi : node[i]? = some (.internal l r))
    (hm : m < i) : (node.take (m + 1)).countP Node.kind < (node.take (i + 1)).countP Node.kind := by
  have hmono : (node.take (m + 1)).countP Node.kind ≤ (node.take i).countP Node.kind :=
    (List.take_sublist_take_left hm).countP_le
  rw [List.take_add_one (i := i), hi, List.countP_append]
  exact Nat.lt_succ_of_le hmono

/-- A path passes as many internal nodes as it has branches, all of them at or below its start. -/
theorem path_length_le_countP {node : List Node} {i j : NodeIdx} {c : Bits} (below : ChildrenBelow node)
    (h : Path node i c j) : c.length ≤ (node.take (i.toNat + 1)).countP Node.kind := by
  induction h with
  | here => exact Nat.zero_le _
  | left he _ ih => exact Nat.lt_of_le_of_lt ih (countP_kind_take_lt he (below _ _ _ he).1)
  | right he _ ih => exact Nat.lt_of_le_of_lt ih (countP_kind_take_lt he (below _ _ _ he).2)

/-- A tree of n leaves has n - 1 internal nodes, so its codes have at most 255 bits. -/
theorem isCode_length_le {node : List Node} {root : NodeIdx} {sym : Sym} {c : Bits} (ht : IsTree node root)
    (h : IsCode node root sym c) : c.length ≤ 255 := by
  obtain ⟨i, hp, _⟩ := h
  have hpath := path_length_le_countP ht.childrenBelow hp
  have hinternal := (List.take_sublist (root.toNat + 1) node).countP_le (p := Node.kind)
  have hkinds := countP_kind_add_leafSymbols node
  have hcount := ht.count
  have hbound := ht.bounded
  omega

/-! ### The codes held between two commands (R37(c)) -/

section Held

variable {s : State} {sym : Sym}

/-- An entry that is valid holds its symbol's path in the tree held. -/
theorem isCode_of_valid (hs : Inv s) (hv : (s.lt.get sym).valid = true) :
    IsTree s.node s.root ∧ IsCode s.node s.root sym (s.lt.get sym).code := by
  cases htable : s.tableValid with
  | false =>
    rw [hs.noTable htable sym] at hv
    cases hv
  | true =>
    obtain ⟨htree, hcodes⟩ := hs.table htable
    exact ⟨hs.tree htree, (hcodes sym _).1 (congrArg (LtEntry.mk · _) hv)⟩

theorem code_length_le (hs : Inv s) (sym : Sym) : (s.lt.get sym).code.length ≤ 255 := by
  cases hv : (s.lt.get sym).valid with
  | false => simp [hs.noCode sym hv]
  | true =>
    obtain ⟨htree, hcode⟩ := isCode_of_valid hs hv
    exact isCode_length_le htree hcode

end Held

/-- Settles O37: a valid entry's code is a path in a tree of at most 255 internal nodes, and any other code is empty. -/
theorem codesAreAtMost255Bits : Obligations.CodesAreAtMost255Bits := fun _ sym hs => code_length_le hs sym

/-! ### The readbacks (R132, R133) -/

/-- The fields of READ_CODE_LEN's view, when the length fits its own. -/
theorem codeLenWord_fields (e : LtEntry) (h : e.code.length ≤ 255) : (codeLenWord e).getLsbD 8 = e.valid ∧
    ((codeLenWord e).extractLsb' 0 8).toNat = e.code.length ∧ (codeLenWord e).extractLsb' 9 23 = 0 := by
  have hlen : (codeLenWord e).extractLsb' 0 8 = BitVec.ofNat 8 e.code.length := by
    rw [codeLenWord]
    ext i hi
    grind
  refine ⟨?_, ?_, ?_⟩
  · rw [codeLenWord]
    grind
  · rw [hlen, BitVec.toNat_ofNat]
    omega
  · rw [codeLenWord]
    ext i hi
    grind

/-- Settles O38: the length fits its eight bits by R131. -/
theorem readCodeLenReturnsValidAndLength : Obligations.ReadCodeLenReturnsValidAndLength :=
  ⟨sFormat_of_row "READ_CODE_LEN" (by simp [opcodeTable]) fun _ _ => rfl, fun _ sym hs =>
    ⟨_, exec_of_success (.readCodeLen sym), codeLenWord_fields _ (code_length_le hs sym)⟩⟩

/-- Settles O39: the answer is the word view of the code. -/
theorem readCodeWordReturnsTheCodeBits : Obligations.ReadCodeWordReturnsTheCodeBits := by
  refine ⟨siFormat_of_row "READ_CODE_WORD" (by simp [opcodeTable]) fun _ _ _ => by simp [WellFormed, Nat.lt_succ_iff],
    fun s sym imm => ⟨wordView (s.lt.get sym).code imm.toNat, exec_of_success (.readCodeWord sym imm), fun j hj => ?_⟩⟩
  exact wordView_getLsbD _ _ j hj

/-! ### No code goes on from another (R134) -/

/-- A path ends at a leaf. -/
theorem path_from_leaf {node : List Node} {i j : NodeIdx} {sym : Sym} {c : Bits} (hi : node[i.toNat]? = some (.leaf sym))
    (h : Path node i c j) : c = [] ∧ j = i := by
  cases h with
  | here => exact ⟨rfl, rfl⟩
  | left he | right he => cases hi.symm.trans he

/-- The relation of R10 is the library's. -/
theorem isPrefix_iff {p q : Bits} : IsPrefix p q ↔ p <+: q := by
  rw [List.prefix_iff_getElem?]
  constructor
  · exact fun ⟨_, h⟩ j hj => by rw [← h j hj, List.getElem?_eq_getElem hj]
  · exact fun h => ⟨(List.prefix_iff_getElem?.2 h).length_le, fun j hj => by rw [h j hj, List.getElem?_eq_getElem hj]⟩

/-- A code that goes on from another ends at the other's leaf. -/
theorem eq_of_isCode_append {node : List Node} {root : NodeIdx} {x y : Sym} {c e : Bits} (hx : IsCode node root x c)
    (hy : IsCode node root y (c ++ e)) : x = y := by
  induction c generalizing root with
  | nil =>
    have hroot := isCode_nil_iff.1 hx
    obtain ⟨j, hp, hj⟩ := hy
    obtain ⟨_, rfl⟩ := path_from_leaf hroot hp
    cases hroot.symm.trans hj
    rfl
  | cons b c ih =>
    obtain ⟨l, r, he⟩ := exists_internal_of_isCode_cons hx
    exact ih ((isCode_cons_iff he).1 hx) ((isCode_cons_iff he).1 hy)

theorem not_isPrefix_of_ne {node : List Node} {root : NodeIdx} {x y : Sym} {c d : Bits} (hne : x ≠ y)
    (hx : IsCode node root x c) (hy : IsCode node root y d) : ¬ IsPrefix c d := by
  rw [isPrefix_iff]
  rintro ⟨e, rfl⟩
  exact hne (eq_of_isCode_append hx hy)

/-- Settles O40: a proper extension of a path to a leaf is no path. -/
theorem codesArePrefixFree : Obligations.CodesArePrefixFree := by
  intro s x y hs _ hne hx hy
  have hcx := (isCode_of_valid hs hx).2
  have hcy := (isCode_of_valid hs hy).2
  exact ⟨not_isPrefix_of_ne hne hcx hcy, not_isPrefix_of_ne hne.symm hcy hcx⟩

end Sys2Proof.Proofs

/-! PROOF. Which symbols have a code: those weighted at the last BUILD (43_code_table.md R135, R136, R238). -/

namespace Sys2Proof.Proofs

open Sys2Proof.Machine Sys2Proof.Safety Sys2Proof.Laws

/-! ### The symbols of a tree's table -/

theorem mem_leafSymbols {node : List Node} {sym : Sym} :
    sym ∈ leafSymbols node ↔ ∃ i : Nat, node[i]? = some (.leaf sym) := by
  rw [leafSymbols, List.mem_filterMap]
  constructor
  · rintro ⟨e, he, hsym⟩
    cases e with
    | internal l r => cases hsym
    | leaf x =>
      cases hsym
      exact List.mem_iff_getElem?.1 he
  · exact fun ⟨i, hi⟩ => ⟨_, List.mem_of_getElem? hi, rfl⟩

/-- In a tree the symbols with a path from the root are those of the leaves (R115(d)). -/
theorem exists_isCode_iff {node : List Node} {root : NodeIdx} (ht : IsTree node root) {sym : Sym} :
    (∃ c, IsCode node root sym c) ↔ sym ∈ leafSymbols node := by
  rw [mem_leafSymbols]
  constructor
  · exact fun ⟨_, i, _, hi⟩ => ⟨i.toNat, hi⟩
  · rintro ⟨k, hk⟩
    have hlt : k < node.length := (List.getElem?_eq_some_iff.1 hk).1
    have hidx : (BitVec.ofNat 9 k).toNat = k := by
      have := ht.bounded
      rw [BitVec.toNat_ofNat]
      omega
    obtain ⟨c, hc⟩ := ht.reachable (BitVec.ofNat 9 k) (hidx.symm ▸ hlt)
    exact ⟨c, _, hc, hidx.symm ▸ hk⟩

theorem isCode_of_tableOf_valid {node : List Node} {root : NodeIdx} {sym : Sym}
    (h : ((tableOf node root).get sym).valid = true) : IsCode node root sym ((tableOf node root).get sym).code := by
  rcases tableOf_get node root sym with h' | ⟨c, hc, h'⟩
  · rw [h'] at h
    cases h
  · rwa [h']

/-- BUILD's tree gives a code to the symbols it weighed and to no other (R136). -/
theorem tableOf_buildForest_valid_iff {w : WeightTable} {f : Forest} (hf : buildForest w = some f) (sym : Sym) :
    ((tableOf f.node (rootOf f)).get sym).valid = true ↔ w.get sym ≠ 0 := by
  have htree := (buildForest_isTree hf).1
  rw [← mem_leafSymbols_buildForest hf, ← exists_isCode_iff htree]
  constructor
  · exact fun h => ⟨_, isCode_of_tableOf_valid h⟩
  · rintro ⟨c, hc⟩
    rw [(tableOf_get_iff htree sym c).2 hc]

/-! ### One weighted symbol (R135) -/

/-- The tree of one weighted symbol is its leaf. -/
theorem buildForest_of_single {w : WeightTable} {x : Sym} {f : Forest} (hf : buildForest w = some f) (hx : w.get x ≠ 0)
    (hother : ∀ y, y ≠ x → w.get y = 0) : f.node = [.leaf x] ∧ rootOf f = 0 := by
  have hweighted : weighted w = [x] := by
    refine List.perm_singleton.1 ((List.perm_ext_iff_of_nodup (weighted_nodup w) (List.nodup_singleton x)).2 fun y => ?_)
    rw [mem_weighted, List.mem_singleton]
    exact ⟨fun hy => not_not.1 (mt (hother y) hy), fun hy => hy ▸ hx⟩
  have hlen := buildForest_node_length hf
  rw [hweighted] at hlen
  obtain ⟨e, hnode⟩ := List.length_eq_one_iff.1 (Nat.succ.inj hlen)
  have hleaf : x ∈ leafSymbols f.node := (mem_leafSymbols_buildForest hf x).2 hx
  have hroot := (buildForest_isTree hf).1.rootLast
  obtain ⟨i, hi⟩ := mem_leafSymbols.1 hleaf
  have he := List.mem_of_getElem? hi
  rw [hnode, List.mem_singleton] at he
  refine ⟨he ▸ hnode, BitVec.eq_of_toNat_eq ?_⟩
  rw [hnode] at hroot
  exact Nat.succ.inj hroot

/-- Settles O41: BUILD's tree is the one leaf, its own root, and the path to it is empty. -/
theorem theSingleSymbolGetsTheEmptyCode : Obligations.TheSingleSymbolGetsTheEmptyCode := by
  intro s x hx hother
  obtain ⟨f, hf, hbuild⟩ := exec_build_of_weighted ⟨x, hx⟩
  have htree := (buildForest_isTree hf).1
  refine ⟨_, (runCommands_cons hbuild).trans (runCommands_cons (exec_of_success (.genTable rfl))), ?_, fun y hy => ?_⟩
  · obtain ⟨hnode, hroot⟩ := buildForest_of_single hf hx hother
    refine (tableOf_get_iff htree x []).2 (isCode_nil_iff.2 ?_)
    rw [hnode, hroot]
    rfl
  · exact Bool.eq_false_iff.2 (mt (tableOf_buildForest_valid_iff hf y).1 (not_not.2 (hother y hy)))

/-! ### What stays of a BUILD (R238) -/

/-- What a BUILD of the table `w` leaves until the next BUILD or SOFT_RESET: its tree, and a lookup table that is the tree's or
cleared. -/
structure BuiltFrom (w : WeightTable) (s : State) : Prop where
  tree : s.treeValid = true → ∃ f, buildForest w = some f ∧ s.node = f.node ∧ s.root = rootOf f
  table : s.tableValid = false ∧ s.lt = LookupTable.cleared ∨ s.treeValid = true ∧ s.lt = tableOf s.node s.root

section Kept

variable {i : Instr} {is : List Instr} {s t : State} {w : WeightTable}

theorem tree_kept (h : Ends i s t) (hb : i ≠ .build) (hr : i ≠ .softReset) :
    t.node = s.node ∧ t.nodeCount = s.nodeCount ∧ t.root = s.root ∧ t.treeValid = s.treeValid := by
  simpa using mt (listed_of_tree_written h) (not_or.2 ⟨hb, hr⟩)

theorem table_kept (h : Ends i s t) (hb : i ≠ .build) (hg : i ≠ .genTable) (hr : i ≠ .softReset) :
    t.lt = s.lt ∧ t.tableValid = s.tableValid := by
  simpa using mt (listed_of_table_written h) (not_or.2 ⟨hb, not_or.2 ⟨hg, hr⟩⟩)

theorem builtFrom_of_build (h : exec .build s = .next t) : BuiltFrom s.w t := by
  cases exec_cases h with
  | success hu =>
    cases hu with
    | build hf => exact ⟨fun _ => ⟨_, hf, rfl, rfl⟩, .inl ⟨rfl, rfl⟩⟩
  | failure hu =>
    cases hu with
    | build => exact ⟨fun hv => by simp at hv, .inl ⟨rfl, rfl⟩⟩

/-- GEN_TABLE writes the tree's table or nothing; no other command than BUILD and SOFT_RESET writes tree or table (R39). -/
theorem builtFrom_of_exec (hs : BuiltFrom w s) (h : exec i s = .next t) (hb : i ≠ .build) (hr : i ≠ .softReset) :
    BuiltFrom w t := by
  have hends := exec_cases h
  obtain ⟨hnode, _, hroot, hvalid⟩ := tree_kept hends hb hr
  refine ⟨hnode ▸ hroot ▸ hvalid ▸ hs.tree, ?_⟩
  by_cases hg : i = .genTable
  · subst hg
    cases hends with
    | success hu =>
      cases hu with
      | genTable hv => exact .inr ⟨hv, rfl⟩
    | failure hu =>
      cases hu with
      | genTable => exact hs.table
  · obtain ⟨hlt, htv⟩ := table_kept hends hb hg hr
    rw [hnode, hroot, hvalid, hlt, htv]
    exact hs.table

theorem builtFrom_of_runCommands (hs : BuiltFrom w s) (his : ∀ i ∈ is, i ≠ .build ∧ i ≠ .softReset)
    (h : runCommands is s = .next t) : BuiltFrom w t := by
  induction is generalizing s with
  | nil =>
    cases h
    exact hs
  | cons i is ih =>
    obtain ⟨u, hu, hrun⟩ := runCommands_cons_next h
    obtain ⟨⟨hb, hr⟩, hrest⟩ := List.forall_mem_cons.1 his
    exact ih (builtFrom_of_exec hs hu hb hr) hrest hrun

theorem builtFrom_of_build_runCommands (his : ∀ i ∈ is, i ≠ .build ∧ i ≠ .softReset)
    (h : runCommands (.build :: is) s = .next t) : BuiltFrom s.w t := by
  obtain ⟨u, hu, hrun⟩ := runCommands_cons_next h
  exact builtFrom_of_runCommands (builtFrom_of_build hu) his hrun

/-- A lookup table that is not cleared is that of BUILD's tree. -/
theorem BuiltFrom.lt_eq (hs : BuiltFrom w s) (h : s.tableValid = true ∨ ∃ x, (s.lt.get x).valid = true) :
    ∃ f, buildForest w = some f ∧ s.lt = tableOf f.node (rootOf f) := by
  rcases hs.table with ⟨hv, hlt⟩ | ⟨hv, hlt⟩
  · rw [hv, hlt] at h
    simp at h
  · obtain ⟨f, hf, hnode, hroot⟩ := hs.tree hv
    exact ⟨f, hf, by rw [hlt, hnode, hroot]⟩

end Kept

/-- Settles O42: a valid table is that of the last BUILD's tree, whose leaves are the symbols weighted then. -/
theorem codesAreExactlyForTheWeightedSymbols : Obligations.CodesAreExactlyForTheWeightedSymbols := by
  intro s t is his h hv sym
  obtain ⟨f, hf, hlt⟩ := (builtFrom_of_build_runCommands his h).lt_eq (.inl hv)
  rw [hlt]
  exact tableOf_buildForest_valid_iff hf sym

end Sys2Proof.Proofs

/-! PROOF. A heavier symbol has no longer code (43_code_table.md R137): later merges take heavier nodes, so of two nodes the
heavier has the heavier parent, all the way up. -/

namespace Sys2Proof.Proofs

open Sys2Proof.Machine Sys2Proof.Safety Sys2Proof.Laws

/-! ### The weight below a node -/

/-- The true sum of the loaded weights below node `i` (R114). -/
def weightAt (w : WeightTable) (node : List Node) (i : Nat) : Nat := (nodeWeights w node).getD i 0

section Weights

variable {w : WeightTable} {node : List Node}

theorem weightAt_snoc {e : Node} {i : Nat} (hi : i < node.length) :
    weightAt w (node ++ [e]) i = weightAt w node i := by
  have hi : i < (nodeWeights w node).length := by rwa [nodeWeights_length]
  cases e with
  | leaf sym => rw [weightAt, nodeWeights_snoc_leaf, List.getD_append _ _ _ _ hi, weightAt]
  | internal l r => rw [weightAt, nodeWeights_snoc_internal, List.getD_append _ _ _ _ hi, weightAt]

theorem weightAt_append {xs ys : List Node} {i : Nat} (hi : i < xs.length) :
    weightAt w (xs ++ ys) i = weightAt w xs i := by
  induction ys using List.reverseRecOn with
  | nil => rw [List.append_nil]
  | append_singleton ys e ih => rw [← List.append_assoc, weightAt_snoc (by simp; omega), ih]

theorem weightAt_take {i k : Nat} (hi : i < k) (hk : k ≤ node.length) : weightAt w (node.take k) i = weightAt w node i := by
  have hlen : i < (node.take k).length := by rwa [List.length_take_of_le hk]
  rw [← weightAt_append hlen, List.take_append_drop]

/-- The weight of a node is the one that joins the list when the node joins the arena. -/
theorem weightAt_of_snoc {k v : Nat} {e : Node} (h : node[k]? = some e)
    (hv : nodeWeights w (node.take k ++ [e]) = nodeWeights w (node.take k) ++ [v]) : weightAt w node k = v := by
  have hk := (List.getElem?_eq_some_iff.1 h).1
  have hlen : (nodeWeights w (node.take k)).length = k := by rw [nodeWeights_length, List.length_take_of_le hk.le]
  rw [← weightAt_take (Nat.lt_succ_self k) hk, List.take_add_one, h, Option.toList_some, weightAt, hv,
    List.getD_append_right _ _ _ _ hlen.le, hlen, Nat.sub_self, List.getD_cons_zero]

theorem weightAt_leaf {k : Nat} {sym : Sym} (h : node[k]? = some (.leaf sym)) : weightAt w node k = (w.get sym).toNat :=
  weightAt_of_snoc h (nodeWeights_snoc_leaf w _ sym)

theorem weightAt_internal {k : Nat} {l r : NodeIdx} (below : ChildrenBelow node) (h : node[k]? = some (.internal l r)) :
    weightAt w node k = weightAt w node l.toNat + weightAt w node r.toNat := by
  have hk := (List.getElem?_eq_some_iff.1 h).1
  obtain ⟨hl, hr⟩ := below k l r h
  rw [weightAt_of_snoc h (nodeWeights_snoc_internal w _ l r), ← weightAt, ← weightAt, weightAt_take hl hk.le,
    weightAt_take hr hk.le]

theorem weightAt_le_of_precedes {a b : Nat} (h : Precedes w node a b) : weightAt w node a ≤ weightAt w node b :=
  h.elim Nat.le_of_lt fun h => Nat.le_of_eq h.1

end Weights

/-! ### Later merges take heavier nodes -/

/-- What BUILD makes of the table `w`: a tree whose leaves come first and whose merges are made in order (R110, R112). -/
structure MergedTree (w : WeightTable) (node : List Node) (root : NodeIdx) : Prop where
  tree : IsTree node root
  leavesFirst : ∃ syms, LeavesFirst syms node
  inOrder : MergesInOrder w node

theorem mergedTree_buildForest {w : WeightTable} {f : Forest} (hf : buildForest w = some f) :
    MergedTree w f.node (rootOf f) := by
  refine ⟨(buildForest_isTree hf).1, ⟨_, leavesFirst_buildForest hf⟩, ?_⟩
  obtain ⟨n, rfl⟩ := exists_mergeLoop_of_buildForest hf
  exact mergesInOrder_mergeLoop w n

/-- After an internal node come internal nodes only. -/
theorem LeavesFirst.internal_of_lt {syms : List Sym} {node : List Node} {p k : Nat} {l r : NodeIdx}
    (h : LeavesFirst syms node) (hp : node[p]? = some (.internal l r)) (hlt : p < k) (hk : k < node.length) :
    ∃ l' r', node[k]? = some (.internal l' r') := by
  obtain ⟨rest, rfl, hrest⟩ := h
  have hsyms : (syms.map Node.leaf).length ≤ p := by
    by_contra hp'
    rw [List.getElem?_append_left (Nat.lt_of_not_le hp')] at hp
    simp at hp
  rw [List.getElem?_append_right (by omega)]
  obtain ⟨e, he⟩ : ∃ e, rest[k - (syms.map Node.leaf).length]? = some e :=
    ⟨_, List.getElem?_eq_getElem (by rw [List.length_append] at hk; omega)⟩
  have hkind := hrest e (List.mem_of_getElem? he)
  cases e with
  | leaf sym => cases hkind
  | internal l' r' => exact ⟨l', r', he⟩

section Order

variable {w : WeightTable} {node : List Node} {root p q i j : NodeIdx} {b b' : Bool} {c d : Bits}

theorem IsChild.internal (h : IsChild node p b i) : ∃ l r, node[p.toNat]? = some (.internal l r) := by
  obtain ⟨l, r, hp, _⟩ := h
  exact ⟨l, r, hp⟩

/-- A node weighs what its children weigh, seen from either of them. -/
theorem MergedTree.sibling (h : MergedTree w node root) (hi : IsChild node p b i) : ∃ i', IsChild node p (!b) i' ∧
    weightAt w node p.toNat = weightAt w node i.toNat + weightAt w node i'.toNat := by
  obtain ⟨l, r, hp, rfl⟩ := hi
  have hsum := weightAt_internal (w := w) h.tree.childrenBelow hp
  cases b with
  | false => exact ⟨r, ⟨l, r, hp, rfl⟩, hsum⟩
  | true => exact ⟨l, ⟨l, r, hp, rfl⟩, hsum.trans (Nat.add_comm _ _)⟩

theorem MergedTree.child_weight_le (h : MergedTree w node root) (hi : IsChild node p b i) :
    weightAt w node i.toNat ≤ weightAt w node p.toNat := by
  obtain ⟨i', _, hsum⟩ := h.sibling hi
  omega

theorem MergedTree.path_weight_le (h : MergedTree w node root) (hp : Path node i c j) :
    weightAt w node j.toNat ≤ weightAt w node i.toNat := by
  induction hp with
  | here => exact Nat.le_refl _
  | left he _ ih => exact Nat.le_trans ih (h.child_weight_le (b := false) ⟨_, _, he, rfl⟩)
  | right he _ ih => exact Nat.le_trans ih (h.child_weight_le (b := true) ⟨_, _, he, rfl⟩)

/-- The children of a merge are in the working set at it, so no earlier merge took them. -/
theorem MergedTree.available (h : MergedTree w node root) (hj : IsChild node q b j) :
    Available node q.toNat j.toNat := by
  obtain ⟨l, r, hq, rfl⟩ := hj
  obtain ⟨hl, hr, _⟩ := h.inOrder _ l r hq
  cases b with
  | false => exact hl
  | true => exact hr

/-- What is left in the working set by a merge is at least as heavy as what the merge takes. -/
theorem MergedTree.child_weight_le_of_available (h : MergedTree w node root) (hi : IsChild node p b i) {k : Nat}
    (hk : Available node p.toNat k) (hno : ∀ l r, node[p.toNat]? = some (.internal l r) → l.toNat ≠ k ∧ r.toNat ≠ k) :
    weightAt w node i.toNat ≤ weightAt w node k := by
  obtain ⟨l, r, hp, rfl⟩ := hi
  obtain ⟨hl, hr⟩ := hno l r hp
  obtain ⟨_, _, hlr, hfirst⟩ := h.inOrder _ l r hp
  have hrk : Precedes w node r.toNat k := ((hfirst k hk).resolve_left hl.symm).resolve_left hr.symm
  cases b with
  | false => exact Nat.le_trans (weightAt_le_of_precedes hlr) (weightAt_le_of_precedes hrk)
  | true => exact weightAt_le_of_precedes hrk

/-- A later merge takes no lighter nodes: its nodes were in the working set before, or were made since of such. -/
theorem MergedTree.child_weight_le_of_later {q j : NodeIdx} {b' : Bool} (h : MergedTree w node root)
    (hi : IsChild node p b i) (hj : IsChild node q b' j) (hpq : p.toNat < q.toNat) :
    weightAt w node i.toNat ≤ weightAt w node j.toNat := by
  obtain ⟨hjq, hfree⟩ := h.available hj
  rcases Nat.lt_trichotomy j.toNat p.toNat with hlt | heq | hgt
  · exact h.child_weight_le_of_available hi ⟨hlt, fun k l r hk => hfree k l r (Nat.lt_trans hk hpq)⟩
      fun l r => hfree p.toNat l r hpq
  · rw [heq]
    exact h.child_weight_le hi
  · obtain ⟨syms, hsyms⟩ := h.leavesFirst
    obtain ⟨l, r, hp⟩ := hi.internal
    obtain ⟨_, _, hq⟩ := hj.internal
    obtain ⟨l', r', hj'⟩ := hsyms.internal_of_lt hp hgt (Nat.lt_trans hjq (List.getElem?_eq_some_iff.1 hq).1)
    have hl' : IsChild node j false l' := ⟨l', r', hj', rfl⟩
    exact Nat.le_trans (h.child_weight_le_of_later hi hl' hgt) (h.child_weight_le hl')
termination_by q.toNat

/-- Of two nodes the heavier one's parent is the heavier one, unless they are siblings. -/
theorem MergedTree.parent_weight_lt (h : MergedTree w node root) (hi : IsChild node p b i) (hj : IsChild node q b' j)
    (hlt : weightAt w node j.toNat < weightAt w node i.toNat) :
    p = q ∨ weightAt w node q.toNat < weightAt w node p.toNat := by
  rcases Nat.lt_trichotomy p.toNat q.toNat with hpq | hpq | hpq
  · exact absurd (h.child_weight_le_of_later hi hj hpq) (Nat.not_le.2 hlt)
  · exact .inl (BitVec.eq_of_toNat_eq hpq)
  · obtain ⟨i', hi', hp⟩ := h.sibling hi
    obtain ⟨j', hj', hq⟩ := h.sibling hj
    have hle := h.child_weight_le_of_later hj' hi' hpq
    exact .inr (by omega)

/-- The heavier of two nodes lies no deeper: going up from both, the one stays the heavier until their paths meet. -/
theorem MergedTree.path_length_le_of_weight_lt (h : MergedTree w node root) (hi : Path node root c i)
    (hj : Path node root d j) (hlt : weightAt w node j.toNat < weightAt w node i.toNat) : c.length ≤ d.length := by
  induction c using List.reverseRecOn generalizing d i j with
  | nil => exact Nat.zero_le _
  | append_singleton c b ih =>
    rcases List.eq_nil_or_concat' d with rfl | ⟨d, b', rfl⟩
    · obtain rfl := path_nil_iff.1 hj
      exact absurd (h.path_weight_le hi) (Nat.not_le.2 hlt)
    · obtain ⟨p, hp, hpi⟩ := path_snoc_iff.1 hi
      obtain ⟨q, hq, hqj⟩ := path_snoc_iff.1 hj
      rw [List.length_append, List.length_append]
      rcases h.parent_weight_lt hpi hqj hlt with rfl | hpq
      · rw [path_unique h.tree hp hq, List.length_singleton, List.length_singleton]
      · exact Nat.add_le_add_right (ih hp hq hpq) 1

end Order

/-- Settles O43: in the tree of the last BUILD the leaf of the heavier symbol lies no deeper. -/
theorem heavierSymbolsHaveNoLongerCodes : Obligations.HeavierSymbolsHaveNoLongerCodes := by
  intro s t is his h x y hxy hx hy
  obtain ⟨f, hf, hlt⟩ := (builtFrom_of_build_runCommands his h).lt_eq (.inr ⟨x, hx⟩)
  rw [hlt] at hx hy ⊢
  obtain ⟨i, hpi, hi⟩ := isCode_of_tableOf_valid hx
  obtain ⟨j, hpj, hj⟩ := isCode_of_tableOf_valid hy
  refine (mergedTree_buildForest hf).path_length_le_of_weight_lt hpi hpj ?_
  rwa [weightAt_leaf hi, weightAt_leaf hj]

end Sys2Proof.Proofs

/-! PROOF. The bit accumulator: its append, its commands, and its readback (44_bit_sequence.md R150 to R157). -/

namespace Sys2Proof.Proofs

open Sys2Proof.Machine Sys2Proof.Safety Sys2Proof.Laws

/-! ### The storage after an append (R150) -/

/-- `s` with `c` after its sequence and BSEQ_LEN counted on: the writes of an append that fits. -/
def appendTo (c : Bits) (s : State) : State :=
  { s with bseq := s.bseq ++ c, bseqLen := s.bseqLen + BitVec.ofNat 32 c.length }

@[simp] theorem appendTo_nil (s : State) : appendTo [] s = s := by
  simp [appendTo]

/-- One append after another is one append of both strings, joined (R156). -/
theorem appendTo_appendTo (c d : Bits) (s : State) : appendTo d (appendTo c s) = appendTo (c ++ d) s := by
  simp only [appendTo, List.append_assoc, List.length_append, BitVec.ofNat_add, BitVec.add_assoc]

/-- Settles O44: BSEQ_LEN counts the sequence by the invariants, so the capacity test is one on the sequence itself. -/
theorem appendIsAllOrNothing : Obligations.AppendIsAllOrNothing := by
  intro s opc arg c hinv _
  obtain ⟨hlen, hcap⟩ := hinv.length
  rw [← hlen]
  refine ⟨fun hfit => ⟨_, bseqLen_add_toNat hfit, appendCommand_of_fits hfit⟩, appendCommand_of_not_fits, ?_⟩
  rintro rfl
  have happend : appendCommand opc arg [] s = .next (responding (okResponse 0) (appendTo [] s)) :=
    appendCommand_of_fits (hlen ▸ hcap)
  rw [happend, appendTo_nil]

/-! ### Grouping (R156) -/

/-- A BSEQ_APPEND_BITS that leaves no taint had room for its bits, and has appended them (R153). -/
theorem appendTo_of_bseqAppendBits {n : BitVec 8} {imm : Data} {s t : State} (h : exec (.bseqAppendBits n imm) s = .next t)
    (ht : t.bseqTaint = false) : s.bseqLen.toNat + n.toNat ≤ s.bseqCap.bits ∧
      t = responding (okResponse 0) (appendTo (immBits n imm) s) := by
  cases exec_cases h with
  | success hu =>
    cases hu with
    | bseqAppendBits hfit => exact ⟨hfit, by rw [appendTo, immBits_length]⟩
  | failure hu =>
    cases hu with
    | bseqAppendBits => simp at ht

/-- One BSEQ_ADD_BIT per bit of the string, in order (R152). -/
def addBits (q : Bits) : List Instr := q.map fun b => .bseqAddBit (if b then 1 else 0)

theorem exec_addBit_of_fits (b : Bool) {s : State} (h : s.bseqLen.toNat + 1 ≤ s.bseqCap.bits) :
    exec (.bseqAddBit (if b then 1 else 0)) s = .next (responding (okResponse 0) (appendTo [b] s)) := by
  have hbit : (if b then 1 else 0 : Data).getLsbD 0 = b := by cases b <;> rfl
  have hexec := exec_of_success (.bseqAddBit (imm := if b then 1 else 0) h)
  rwa [hbit] at hexec

/-- Bits added one by one leave the storage that one append of them leaves (R156). -/
theorem runCommands_addBits {q : Bits} {s : State} (h : s.bseqLen.toNat + q.length ≤ s.bseqCap.bits) :
    ∃ u, runCommands (addBits q) s = .next u ∧ storageOf u = storageOf (appendTo q s) := by
  induction q generalizing s with
  | nil => exact ⟨s, rfl, by rw [appendTo_nil]⟩
  | cons b q ih =>
    rw [List.length_cons] at h
    have hbit : s.bseqLen.toNat + 1 ≤ s.bseqCap.bits := by omega
    have hlen : (s.bseqLen + 1#32).toNat = s.bseqLen.toNat + 1 := bseqLen_add_toNat hbit
    have hrest : (s.bseqLen + 1#32).toNat + q.length ≤ s.bseqCap.bits := by omega
    obtain ⟨u, hrun, hu⟩ := ih (s := responding (okResponse 0) (appendTo [b] s)) hrest
    refine ⟨u, (runCommands_cons (exec_addBit_of_fits b hbit)).trans hrun, hu.trans ?_⟩
    calc storageOf (appendTo q (responding (okResponse 0) (appendTo [b] s)))
        = storageOf (appendTo q (appendTo [b] s)) := rfl
      _ = storageOf (appendTo (b :: q) s) := by rw [appendTo_appendTo, List.singleton_append]

/-- Settles O50: the groups' bits are appended in order, and a group that fits is what its bits add up to one by one. -/
theorem appendsAreAssociative : Obligations.AppendsAreAssociative := by
  refine ⟨fun s t parts _ _ hrun ht => bseq_of_appendBits hrun ht, fun s t u n imm _ _ _ hrun ht hbits => ?_⟩
  obtain ⟨t', hexec, hend⟩ := runCommands_cons_next hrun
  cases hend
  obtain ⟨hfit, rfl⟩ := appendTo_of_bseqAppendBits hexec ht
  obtain ⟨u', hrun', hu'⟩ := runCommands_addBits (q := immBits n imm) (by rwa [immBits_length])
  have hsame : addBits (immBits n imm) = (List.range n.toNat).map fun j => .bseqAddBit (if imm.getLsbD j then 1 else 0) := by
    rw [addBits, immBits, List.map_map]
    rfl
  rw [hsame, hbits] at hrun'
  cases hrun'
  exact hu'.symm

/-! ### Clearing and appending (R151 to R153) -/

/-- Settles O45: the command always succeeds, and these are its writes. -/
theorem bseqClearStartsAnEmptySequence : Obligations.BseqClearStartsAnEmptySequence :=
  ⟨zFormat_of_row "BSEQ_CLEAR" (by simp [opcodeTable]) fun _ => rfl, fun _ => exec_of_success .bseqClear⟩

/-- Settles O46: by whether there is room for one bit. -/
theorem bseqAddBitAppendsTheBit : Obligations.BseqAddBitAppendsTheBit :=
  ⟨iFormat_of_row "BSEQ_ADD_BIT" (by simp [opcodeTable]) fun _ _ => by simp [WellFormed],
    fun _ _ => ⟨fun hroom => exec_of_success (.bseqAddBit hroom),
      fun hfull => exec_of_failure (.bseqAddBit (Nat.lt_succ_of_le hfull))⟩⟩

/-- The word of a BSEQ_APPEND_BITS by its fields (R75). -/
theorem encode_bseqAppendBits (n : BitVec 8) (imm : Data) :
    encode (.bseqAppendBits n imm) = 0x52#8 ++ n ++ 0#16 ++ imm := rfl

/-- The words with opcode 0x52: format NI, its N at most 32 (R75, R80, R81). -/
theorem bseqAppendBits_words (s : State) (w : CmdWord) (n : BitVec 8) (imm : Data) :
    (n.toNat ≤ 32 → Runs (0x52#8 ++ n ++ 0#16 ++ imm) (.bseqAppendBits n imm) s) ∧
    (w.extractLsb' 56 8 = 0x52 → w.extractLsb' 32 16 ≠ 0 → Rejected 2 w s) ∧
    (32 < n.toNat → Rejected 3 (0x52#8 ++ n ++ 0#16 ++ imm) s) := by
  have hrow : ⟨"BSEQ_APPEND_BITS", 0x52, .ni, fun a imm => .bseqAppendBits a imm⟩ ∈ opcodeTable := by simp [opcodeTable]
  rw [← encode_bseqAppendBits]
  refine ⟨fun hin => runs_encode (by simpa [WellFormed] using hin), fun hopc hres => ?_,
    fun hout => rejected_encode (by simpa [WellFormed] using hout)⟩
  exact rejected_of_reserved hrow hopc (by simpa [reservedClear] using hres)

/-- Settles O47: the bits appended are IMM's lowest N, by whether they fit. -/
theorem bseqAppendBitsAppendsTheLowBits : Obligations.BseqAppendBitsAppendsTheLowBits :=
  ⟨bseqAppendBits_words, fun _ n imm => ⟨fun hfit => ⟨immBits n imm, _, exec_of_success (.bseqAppendBits hfit),
      immBits_length n imm, immBits_getElem? n imm, bseqLen_add_toNat hfit⟩,
    fun hfull => exec_of_failure (.bseqAppendBits hfull)⟩⟩

/-! ### Reading back (R154, R155, R157) -/

/-- Settles O48: the read always succeeds, over the state it read. -/
theorem readBseqLenReturnsTheCount : Obligations.ReadBseqLenReturnsTheCount :=
  ⟨zFormat_of_row "READ_BSEQ_LEN" (by simp [opcodeTable]) fun _ => rfl, fun _ => exec_of_success .readBseqLen⟩

/-- The word range of R81 by the last word that exists. -/
theorem wellFormed_readBseqWord_iff (cap : BseqCap) (imm : Data) :
    WellFormed cap (.readBseqWord imm) = true ↔ imm.toNat ≤ cap.bits / 32 - 1 := by
  obtain ⟨_, hmin, _⟩ := bits_bounds cap
  rw [WellFormed, decide_eq_true_iff, words_eq]
  omega

/-- Settles O49: the answer is the word view of the sequence. -/
theorem readBseqWordReturnsTheBits : Obligations.ReadBseqWordReturnsTheBits :=
  ⟨iFormat_of_row "READ_BSEQ_WORD" (by simp [opcodeTable]) wellFormed_readBseqWord_iff,
    fun s imm => ⟨wordView s.bseq imm.toNat, exec_of_success (.readBseqWord imm), wordView_getLsbD s.bseq imm.toNat⟩⟩

@[simp] theorem dataField_okResponse (data : Data) : dataField (okResponse data) = data := by
  ext i hi
  rw [dataField, okResponse, BitVec.getElem_extractLsb']
  grind

theorem dataOf_readBseqWord (imm : Data) (s : State) :
    dataOf (exec (.readBseqWord imm) s) = wordView s.bseq imm.toNat := by
  rw [exec_of_success (.readBseqWord imm)]
  exact dataField_okResponse _

/-- Element `i` of a sequence stands in the word read at i div 32, as its bit i mod 32, when the index reaches that word (R53). -/
theorem readBseqWord_bit {s : State} {i : Nat} (h : i < s.bseq.length) (hb : i < 2 ^ 32) :
    (dataOf (exec (.readBseqWord (BitVec.ofNat 32 (i / 32))) s)).getLsbD (i % 32) = s.bseq[i] := by
  have hidx : (BitVec.ofNat 32 (i / 32)).toNat = i / 32 := by
    rw [BitVec.toNat_ofNat]
    omega
  rw [dataOf_readBseqWord, hidx, wordView_getLsbD _ _ _ (Nat.mod_lt i (by decide)), Nat.div_add_mod]
  simp [h]

/-- Settles O52: character by character, every index below the capacity being one that READ_BSEQ_WORD can be given. -/
theorem renderingSpellsTheSequence : Obligations.RenderingSpellsTheSequence := by
  intro s hinv
  obtain ⟨hlen, hcap⟩ := hinv.length
  obtain ⟨_, _, hmax⟩ := bits_bounds s.bseqCap
  refine List.ext_getElem (by simp [rendering, hlen]) fun i _ hi => ?_
  rw [List.length_map] at hi
  have hbit := readBseqWord_bit hi (by omega)
  simp only [rendering, List.getElem_map, List.getElem_range, hbit]

end Sys2Proof.Proofs

/-! PROOF. The encoder (45_encoder.md R170 to R174): what ENCODE of one symbol and of a text leaves, and the decoder that
reads a text back. -/

namespace Sys2Proof.Proofs

open Sys2Proof.Machine Sys2Proof.Safety Sys2Proof.Laws

/-! ### One symbol (R170) -/

/-- Settles O53: by whether the symbol has a code, and whether it fits. -/
theorem encodeAppendsTheCode : Obligations.EncodeAppendsTheCode := by
  refine ⟨sFormat_of_row "ENCODE" (by simp [opcodeTable]) fun _ _ => rfl, fun s sym hs => ?_⟩
  obtain ⟨hlen, _⟩ := hs.length
  rw [← hlen]
  refine ⟨fun hmissing => exec_of_failure (.missing hmissing), fun c hc hfit => ?_, fun c hc hfull => ?_⟩
  · obtain rfl : (s.lt.get sym).code = c := congrArg LtEntry.code hc
    exact ⟨_, bseqLen_add_toNat hfit, exec_of_success (.encode (congrArg LtEntry.valid hc) hfit)⟩
  · obtain rfl : (s.lt.get sym).code = c := congrArg LtEntry.code hc
    exact exec_of_failure (.encode (congrArg LtEntry.valid hc) hfull)

/-! ### The codes of a text (R172) -/

/-- The codes of a text's symbols, joined in text order; a symbol without a code adds what its entry holds, which is nothing
in every state that meets the invariants. -/
def codesOf (lt : LookupTable) (text : List Sym) : Bits := (text.map fun sym => (lt.get sym).code).flatten

@[simp] theorem codesOf_cons (lt : LookupTable) (sym : Sym) (text : List Sym) :
    codesOf lt (sym :: text) = (lt.get sym).code ++ codesOf lt text := by
  simp [codesOf]

@[simp] theorem codesOf_append (lt : LookupTable) (text rest : List Sym) :
    codesOf lt (text ++ rest) = codesOf lt text ++ codesOf lt rest := by
  simp [codesOf]

theorem codesOf_length (lt : LookupTable) (text : List Sym) :
    (codesOf lt text).length = (text.map fun sym => (lt.get sym).code.length).sum := by
  rw [codesOf, List.length_flatten, List.map_map, Function.comp_def]

theorem codesOf_eq_nil {lt : LookupTable} {text : List Sym} (h : ∀ sym ∈ text, (lt.get sym).code = []) :
    codesOf lt text = [] := by
  simpa [codesOf] using h

/-- Symbols without a code add nothing (R37). -/
theorem codesOf_filter_valid {s : State} (hs : Inv s) (text : List Sym) :
    codesOf s.lt (text.filter fun sym => (s.lt.get sym).valid) = codesOf s.lt text := by
  induction text with
  | nil => rfl
  | cons sym text ih =>
    cases hv : (s.lt.get sym).valid with
    | true => rw [List.filter_cons, if_pos hv, codesOf_cons, codesOf_cons, ih]
    | false => rw [List.filter_cons, if_neg (by simp [hv]), codesOf_cons, hs.noCode sym hv, ih, List.nil_append]

/-! ### Runs of commands, cut and kept -/

theorem runCommands_append_next {is js : List Instr} {s t : State} (h : runCommands (is ++ js) s = .next t) :
    ∃ u, runCommands is s = .next u ∧ runCommands js u = .next t := by
  induction is generalizing s with
  | nil => exact ⟨s, rfl, h⟩
  | cons i is ih =>
    obtain ⟨u, hu, hrun⟩ := runCommands_cons_next h
    obtain ⟨v, hv, hrest⟩ := ih hrun
    exact ⟨v, (runCommands_cons hu).trans hv, hrest⟩

/-- What each of the commands keeps, their run keeps. -/
theorem kept_of_runCommands {P : State → Prop} {is : List Instr} {s t : State} (hs : P s)
    (hkeep : ∀ i ∈ is, ∀ u v, P u → exec i u = .next v → P v) (h : runCommands is s = .next t) : P t := by
  induction is generalizing s with
  | nil =>
    cases h
    exact hs
  | cons i is ih =>
    obtain ⟨u, hu, hrun⟩ := runCommands_cons_next h
    obtain ⟨hfirst, hrest⟩ := List.forall_mem_cons.1 hkeep
    exact ih (hfirst s u hs hu) hrest hrun

/-! ### A text (R171, R172) -/

section Text

variable {s t : State} {sym x : Sym} {text : List Sym}

/-- `s` with the empty, untainted sequence that BSEQ_CLEAR starts (R151). -/
def clearSequence (s : State) : State := { s with bseq := [], bseqLen := 0, bseqTaint := false }

theorem exec_bseqClear (s : State) : exec .bseqClear s = .next (responding (okResponse 0) (clearSequence s)) :=
  exec_of_success .bseqClear

/-- A text whose symbols have codes that fit together is encoded to the end. -/
theorem runCommands_encodeStr (hv : ∀ sym ∈ text, (s.lt.get sym).valid = true)
    (hfit : s.bseqLen.toNat + (codesOf s.lt text).length ≤ s.bseqCap.bits) :
    ∃ t, runCommands (encodeStr text) s = .next t ∧ storageOf t = storageOf (appendTo (codesOf s.lt text) s) := by
  induction text generalizing s with
  | nil => exact ⟨s, rfl, congrArg storageOf (appendTo_nil s).symm⟩
  | cons sym text ih =>
    obtain ⟨hsym, hrest⟩ := List.forall_mem_cons.1 hv
    rw [codesOf_cons, List.length_append] at hfit
    have hfirst : s.bseqLen.toNat + (s.lt.get sym).code.length ≤ s.bseqCap.bits := by omega
    obtain ⟨t, hrun, ht⟩ := ih (s := responding (okResponse 0) (appendTo (s.lt.get sym).code s)) hrest
      ((bseqLen_add_toNat hfirst).symm ▸ Nat.add_assoc .. ▸ hfit)
    refine ⟨t, (runCommands_cons (exec_of_success (.encode hsym hfirst))).trans hrun, ht.trans ?_⟩
    rw [codesOf_cons, ← appendTo_appendTo]
    rfl

/-- A symbol's ENCODE that leaves no taint has found a code and appended it. -/
theorem appendTo_of_encode (h : exec (.encode sym) s = .next t) (ht : t.bseqTaint = false) :
    (s.lt.get sym).valid = true ∧ t = responding (okResponse 0) (appendTo (s.lt.get sym).code s) := by
  cases exec_cases h with
  | success hu =>
    cases hu with
    | encode hv => exact ⟨hv, rfl⟩
  | failure hu => cases hu <;> simp at ht

theorem keepsTaint_encodeStr (text : List Sym) : ∀ i ∈ encodeStr text, i ≠ .bseqClear ∧ i ≠ .softReset := by
  intro i hi
  obtain ⟨sym, _, rfl⟩ := List.mem_map.1 hi
  exact ⟨nofun, nofun⟩

/-- A text's encoding that leaves no taint has found every symbol's code and appended them all. -/
theorem appendTo_of_encodeStr (h : runCommands (encodeStr text) s = .next t) (ht : t.bseqTaint = false) :
    (∀ sym ∈ text, (s.lt.get sym).valid = true) ∧ storageOf t = storageOf (appendTo (codesOf s.lt text) s) := by
  induction text generalizing s with
  | nil =>
    cases h
    exact ⟨nofun, congrArg storageOf (appendTo_nil _).symm⟩
  | cons sym text ih =>
    obtain ⟨u, hu, hrun⟩ := runCommands_cons_next h
    have hut : u.bseqTaint = false := Bool.eq_false_iff.2 fun htaint =>
      Bool.false_ne_true (ht.symm.trans (taint_of_runCommands htaint (keepsTaint_encodeStr text) hrun))
    obtain ⟨hsym, rfl⟩ := appendTo_of_encode hu hut
    obtain ⟨hrest, hst⟩ := ih hrun
    refine ⟨List.forall_mem_cons.2 ⟨hsym, hrest⟩, hst.trans ?_⟩
    rw [codesOf_cons, ← appendTo_appendTo]
    rfl

/-- From the cleared sequence, the codes of a text are one append. -/
theorem runCommands_bseqClear_encodeStr (hv : ∀ sym ∈ text, (s.lt.get sym).valid = true)
    (hfit : (codesOf s.lt text).length ≤ s.bseqCap.bits) : ∃ t, runCommands (.bseqClear :: encodeStr text) s = .next t ∧
      storageOf t = storageOf (appendTo (codesOf s.lt text) (clearSequence s)) := by
  obtain ⟨t, hrun, ht⟩ := runCommands_encodeStr (s := responding (okResponse 0) (clearSequence s)) hv
    ((Nat.zero_add _).trans_le hfit)
  exact ⟨t, (runCommands_cons (exec_bseqClear s)).trans hrun, ht⟩

/-- Settles O54: the length counted from 0 is that of the codes, which fit. -/
theorem encodedTextIsTheConcatenationOfCodes : Obligations.EncodedTextIsTheConcatenationOfCodes := by
  intro s text _ hv hfit
  rw [← codesOf_length] at hfit ⊢
  obtain ⟨t, hrun, ht⟩ := runCommands_bseqClear_encodeStr hv hfit
  have hlen : (0 + BitVec.ofNat 32 (codesOf s.lt text).length).toNat = 0 + (codesOf s.lt text).length :=
    bseqLen_add_toNat ((Nat.zero_add _).trans_le hfit)
  exact ⟨t, _, hrun, hlen.trans (Nat.zero_add _), ht⟩

/-! ### A missing symbol (R171, R202) -/

/-- An ENCODE with room for its code appends what the symbol's entry holds, nothing when it has no code. -/
theorem bseq_of_encode (hs : Inv s) (hfit : s.bseq.length + (s.lt.get sym).code.length ≤ s.bseqCap.bits)
    (h : exec (.encode sym) s = .next t) :
    t.bseq = s.bseq ++ (s.lt.get sym).code ∧ t.lt = s.lt ∧ t.bseqCap = s.bseqCap := by
  cases exec_cases h with
  | success hu =>
    cases hu with
    | encode => exact ⟨rfl, rfl, rfl⟩
  | failure hu =>
    cases hu with
    | missing hv => exact ⟨by simp [hs.noCode sym hv], rfl, rfl⟩
    | encode _ hfull =>
      obtain ⟨hlen, _⟩ := hs.length
      omega

/-- A text with room for its codes leaves all of them, whether or not a symbol is missing. -/
theorem bseq_of_encodeStr (hs : Inv s) (hfit : s.bseq.length + (codesOf s.lt text).length ≤ s.bseqCap.bits)
    (h : runCommands (encodeStr text) s = .next t) : t.bseq = s.bseq ++ codesOf s.lt text := by
  induction text generalizing s with
  | nil =>
    cases h
    exact (List.append_nil _).symm
  | cons sym text ih =>
    obtain ⟨u, hu, hrun⟩ := runCommands_cons_next h
    rw [codesOf_cons, List.length_append] at hfit
    obtain ⟨hbseq, hlt, hcap⟩ := bseq_of_encode hs (by omega) hu
    rw [ih (inv_of_exec hs hu) (by rw [hbseq, hlt, hcap, List.length_append]; omega) hrun, hbseq, hlt, codesOf_cons,
      List.append_assoc]

/-- The sequence is tainted, and the error register names ENCODE and the missing symbol `x` (R202). -/
def NamesMissing (x : Sym) (s : State) : Prop :=
  s.bseqTaint = true ∧ s.errCode = 2 ∧ s.errOpc = 0x40 ∧ s.errArg = x

/-- The first missing symbol is recorded in an error register that was empty. -/
theorem namesMissing_of_encode (hv : (s.lt.get x).valid = false) (he : s.errCode = 0)
    (h : exec (.encode x) s = .next t) : NamesMissing x t := by
  rw [exec_of_failure (.missing hv)] at h
  cases h
  simp [NamesMissing, he, opcodeOf]

/-- A later ENCODE, failing or not, keeps the taint and the first error. -/
theorem namesMissing_kept (hs : NamesMissing x s) (h : exec (.encode sym) s = .next t) : NamesMissing x t := by
  cases exec_cases h with
  | success hu =>
    cases hu with
    | encode => exact hs
  | failure hu =>
    obtain ⟨_, hcode, hopc, harg⟩ := hs
    cases hu <;> simp [NamesMissing, hcode, hopc, harg]

theorem namesMissing_kept_encodeStr (hs : NamesMissing x s) (h : runCommands (encodeStr text) s = .next t) :
    NamesMissing x t := by
  refine kept_of_runCommands hs (fun i hi u v hu hexec => ?_) h
  obtain ⟨sym, _, rfl⟩ := List.mem_map.1 hi
  exact namesMissing_kept hu hexec

/-- The symbols before the missing one leave the error register empty, and those after it keep what it records. -/
theorem namesMissing_of_encodeStr {before after : List Sym} (he : s.errCode = 0)
    (hv : ∀ sym ∈ before, (s.lt.get sym).valid = true) (hx : (s.lt.get x).valid = false)
    (hfit : (codesOf s.lt before).length ≤ s.bseqCap.bits)
    (h : runCommands (.bseqClear :: encodeStr (before ++ x :: after)) s = .next t) : NamesMissing x t := by
  rw [encodeStr, List.map_append, ← List.cons_append] at h
  obtain ⟨u, hbefore, hrun⟩ := runCommands_append_next h
  obtain ⟨u', hbefore', hst⟩ := runCommands_bseqClear_encodeStr hv hfit
  cases hbefore.symm.trans hbefore'
  have hlt : u.lt = s.lt := (congrArg State.lt hst :)
  have herr : u.errCode = s.errCode := (congrArg State.errCode hst :)
  obtain ⟨v, hmissing, hafter⟩ := runCommands_cons_next hrun
  exact namesMissing_kept_encodeStr (namesMissing_of_encode (hlt ▸ hx) (herr.trans he) hmissing) hafter

/-- Settles O55: the error register names the first missing symbol, and the sequence gets the code of each symbol that has one. -/
theorem aMissingSymbolTaintsTheSequence : Obligations.AMissingSymbolTaintsTheSequence := by
  intro s t before after x hs he hv hx hfit h
  rw [← codesOf_length] at hfit
  have hbefore : (codesOf s.lt before).length ≤ s.bseqCap.bits := by
    rw [codesOf_append, List.length_append] at hfit
    exact Nat.le_of_add_right_le hfit
  obtain ⟨htaint, hcode, hopc, harg⟩ := namesMissing_of_encodeStr he hv hx hbefore h
  obtain ⟨u, hclear, hrun⟩ := runCommands_cons_next h
  have hu := inv_of_exec hs hclear
  cases (exec_bseqClear s).symm.trans hclear
  have hbseq := bseq_of_encodeStr hu ((Nat.zero_add _).trans_le hfit) hrun
  exact ⟨htaint, hcode, hopc, harg, hbseq.trans (codesOf_filter_valid hs _).symm⟩

end Text

/-! ### The decoder outside the core (R174) -/

section Decoder

variable {node : List Node} {root i : NodeIdx} {sym x y : Sym} {b : Bool} {c : Bits}

theorem readSymbols_leaf {l r : NodeIdx} (q : Bits) (hi : node[i.toNat]? = some (.internal l r))
    (hj : node[(if b then r else l).toNat]? = some (.leaf sym)) :
    readSymbols node root i (b :: q) = sym :: readSymbols node root root q := by
  simp only [readSymbols, hi, hj]

theorem readSymbols_internal {l r l' r' : NodeIdx} (q : Bits) (hi : node[i.toNat]? = some (.internal l r))
    (hj : node[(if b then r else l).toNat]? = some (.internal l' r')) :
    readSymbols node root i (b :: q) = readSymbols node root (if b then r else l) q := by
  simp only [readSymbols, hi, hj]

/-- From node `i`, the branches to a leaf below it give the leaf's symbol, and the decoder goes on at the root. -/
theorem readSymbols_isCode (q : Bits) (h : IsCode node i sym (b :: c)) :
    readSymbols node root i (b :: c ++ q) = sym :: readSymbols node root root q := by
  induction c generalizing i b with
  | nil =>
    obtain ⟨l, r, hi⟩ := exists_internal_of_isCode_cons h
    exact readSymbols_leaf q hi (isCode_nil_iff.1 ((isCode_cons_iff hi).1 h))
  | cons b' c ih =>
    obtain ⟨l, r, hi⟩ := exists_internal_of_isCode_cons h
    have hbelow := (isCode_cons_iff hi).1 h
    obtain ⟨l', r', hj⟩ := exists_internal_of_isCode_cons hbelow
    exact (readSymbols_internal _ hi hj).trans (ih hbelow)

/-- Codes that are non-empty paths in the tree are read back as their symbols. -/
theorem readSymbols_codesOf {lt : LookupTable} {text : List Sym}
    (h : ∀ sym ∈ text, IsCode node root sym (lt.get sym).code ∧ (lt.get sym).code ≠ []) :
    readSymbols node root root (codesOf lt text) = text := by
  induction text with
  | nil => rfl
  | cons sym text ih =>
    obtain ⟨⟨hcode, hne⟩, hrest⟩ := List.forall_mem_cons.1 h
    obtain ⟨b, c, hbc⟩ := List.exists_cons_of_ne_nil hne
    rw [codesOf_cons, hbc, readSymbols_isCode _ (hbc ▸ hcode), ih hrest]

/-- A symbol with the empty code is the only one with a code: the root is its leaf. -/
theorem eq_of_isCode_nil (hx : IsCode node root x []) (hy : IsCode node root y c) : x = y :=
  eq_of_isCode_append hx (e := c) hy

/-- Where two symbols have a code, no symbol has the empty code. -/
theorem isCode_ne_nil (hxy : x ≠ y) {d e : Bits} (hx : IsCode node root x d) (hy : IsCode node root y e)
    (h : IsCode node root sym c) : c ≠ [] := by
  rintro rfl
  exact hxy ((eq_of_isCode_nil h hx).symm.trans (eq_of_isCode_nil h hy))

end Decoder

/-! ### Encoding and reading back (R174) -/

/-- After BUILD and GEN_TABLE, an entry that is valid holds its symbol's path in the tree held. -/
theorem isCode_of_build_genTable {s u : State} {sym : Sym} (h : runCommands [.build, .genTable] s = .next u)
    (hv : (u.lt.get sym).valid = true) : IsCode u.node u.root sym (u.lt.get sym).code := by
  have hbuilt : BuiltFrom s.w u := builtFrom_of_build_runCommands (by simp) h
  rcases hbuilt.table with ⟨_, hlt⟩ | ⟨_, hlt⟩
  · rw [hlt, get_cleared] at hv
    cases hv
  · rw [hlt] at hv ⊢
    exact isCode_of_tableOf_valid hv

/-- Settles O56: the sequence is the text's codes. With two symbols each is a non-empty path, which the decoder follows; with
one it is the empty code. -/
theorem decodingTheEncodedTextGivesItBack : Obligations.DecodingTheEncodedTextGivesItBack := by
  intro s t text hw h ht
  obtain ⟨u, hbuild, hrun⟩ := runCommands_append_next (is := [.build, .genTable]) h
  obtain ⟨v, hclear, hrun⟩ := runCommands_cons_next hrun
  cases (exec_bseqClear u).symm.trans hclear
  obtain ⟨hvalid, hst⟩ := appendTo_of_encodeStr hrun ht
  have hbseq : t.bseq = codesOf u.lt text := (congrArg State.bseq hst :)
  have hnode : t.node = u.node := (congrArg State.node hst :)
  have hroot : t.root = u.root := (congrArg State.root hst :)
  have hcode (sym : Sym) (hsym : sym ∈ text) := isCode_of_build_genTable hbuild (hvalid sym hsym)
  constructor
  · rintro ⟨x, hx, y, hy, hxy⟩
    rw [hbseq, hnode, hroot]
    exact readSymbols_codesOf fun sym hsym =>
      ⟨hcode sym hsym, isCode_ne_nil hxy (hcode x hx) (hcode y hy) (hcode sym hsym)⟩
  · rintro ⟨x, hx, honly⟩
    have hne : s.w.get x ≠ 0 := fun h0 => by
      have hcount := hw x
      rw [h0] at hcount
      exact List.count_eq_zero.1 hcount.symm hx
    have hzero (y : Sym) (hy : y ≠ x) : s.w.get y = 0 :=
      BitVec.eq_of_toNat_eq ((hw y).trans (List.count_eq_zero.2 (mt (honly y) hy)))
    obtain ⟨u', hbuild', hempty, _⟩ := theSingleSymbolGetsTheEmptyCode s x hne hzero
    cases hbuild.symm.trans hbuild'
    rw [hbseq]
    exact codesOf_eq_nil fun sym hsym => honly sym hsym ▸ congrArg LtEntry.code hempty

end Sys2Proof.Proofs

/-! PROOF. The block-control commands (46_control.md R190 to R194), with the STATUS and ERROR words (10_state.md R33, R34). -/

namespace Sys2Proof.Proofs

open Sys2Proof.Machine Sys2Proof.Safety Sys2Proof.Laws

/-! ### Commands without an answer (R190, R191, R194) -/

/-- Settles O20: the command always succeeds, over the state it met. -/
theorem nopDoesNothing : Obligations.NopDoesNothing :=
  ⟨zFormat_of_row "NOP" (by simp [opcodeTable]) fun _ => rfl, fun _ => exec_of_success .nop⟩

/-- Settles O21: the storage left is the reset storage, whose two tables are filled with one value each. -/
theorem softResetClearsEveryStorage : Obligations.SoftResetClearsEveryStorage :=
  ⟨zFormat_of_row "SOFT_RESET" (by simp [opcodeTable]) fun _ => rfl,
    fun _ => ⟨WeightTable.zero, LookupTable.cleared, get_zero, get_cleared, exec_of_success .softReset⟩⟩

/-- Settles O24: the command always succeeds, and these are its writes. -/
theorem clearErrorEmptiesOnlyTheErrorRegister : Obligations.ClearErrorEmptiesOnlyTheErrorRegister :=
  ⟨zFormat_of_row "CLEAR_ERROR" (by simp [opcodeTable]) fun _ => rfl, fun _ => exec_of_success .clearError⟩

/-! ### The STATUS word (R33, R192) -/

/-- ERR_PENDING says that an error is recorded (R33). -/
theorem errPending_iff (s : State) : errPending s = true ↔ s.errCode ≠ 0 := by
  simp [errPending]

/-- The five flags of STATUS, from bit 0 up. -/
theorem statusWord_flags (s : State) : (statusWord s).getLsbD 0 = s.treeValid ∧ (statusWord s).getLsbD 1 = s.tableValid ∧
    (statusWord s).getLsbD 2 = s.bseqTaint ∧ (statusWord s).getLsbD 3 = errPending s ∧
    (statusWord s).getLsbD 4 = s.errMulti := by
  simp only [statusWord, BitVec.getLsbD_append]
  simp

/-- The fields of STATUS above its flags: none reaches across a joint of the appended parts. -/
theorem statusWord_fields (s : State) : (statusWord s).extractLsb' 5 3 = 0 ∧ (statusWord s).extractLsb' 8 10 = s.nodeCount ∧
    (statusWord s).extractLsb' 18 9 = s.root ∧ (statusWord s).extractLsb' 27 5 = 0 := by
  simp (disch := decide) only [statusWord, BitVec.extractLsb'_append_eq_of_le, BitVec.extractLsb'_append_eq_of_add_le]
  simp

/-- Settles O22: the answer is the STATUS word, over the state it was read from. -/
theorem readStatusReturnsTheStatusFields : Obligations.ReadStatusReturnsTheStatusFields := by
  refine ⟨zFormat_of_row "READ_STATUS" (by simp [opcodeTable]) fun _ => rfl, fun s => ?_⟩
  obtain ⟨htree, htable, htaint, hpending, hmulti⟩ := statusWord_flags s
  have herror : (statusWord s).getLsbD 3 = true ↔ s.errCode ≠ 0 := hpending ▸ errPending_iff s
  exact ⟨statusWord s, exec_of_success .readStatus, htree, htable, htaint, herror, hmulti, statusWord_fields s⟩

/-! ### The ERROR word (R34, R193) -/

/-- The fields of ERROR: again none reaches across a joint. -/
theorem errorWord_fields (s : State) : (errorWord s).extractLsb' 0 8 = s.errCode ∧
    (errorWord s).extractLsb' 8 8 = s.errOpc ∧ (errorWord s).extractLsb' 16 8 = s.errArg ∧
    (errorWord s).getLsbD 24 = s.errMulti ∧ (errorWord s).extractLsb' 25 7 = 0 := by
  simp (disch := decide) only [errorWord, BitVec.getLsbD_append, BitVec.extractLsb'_append_eq_of_le,
    BitVec.extractLsb'_append_eq_of_add_le]
  simp

/-- Settles O23: the answer is the ERROR word, over the state it was read from. -/
theorem readErrorReturnsTheErrorFields : Obligations.ReadErrorReturnsTheErrorFields :=
  ⟨zFormat_of_row "READ_ERROR" (by simp [opcodeTable]) fun _ => rfl,
    fun s => ⟨errorWord s, exec_of_success .readError, errorWord_fields s⟩⟩

end Sys2Proof.Proofs

/-! PROOF. Errors (60_exceptions.md R200 to R204): which error a word raises, what it leaves behind, and that nothing stops the
core but a broken handshake (70_reset_and_hazards.md R235). -/

namespace Sys2Proof.Proofs

open Sys2Proof.Machine Sys2Proof.Safety Sys2Proof.Laws

/-! ### What stops a step (R204, R235) -/

/-- The edge to come is outside reset, and the host breaks its hold duty at it (R71). -/
def BreaksHandshake (s : State) : Prop :=
  ∃ e rest, s.script = e :: rest ∧ e.rstN = true ∧ handshakeKept s e = false

section Stops

variable {s : State} {e : Edge}

/-- The hold duty is broken exactly when a word was offered before and is not offered again (R71). -/
theorem handshakeKept_eq_false_iff : handshakeKept s e = false ↔
    ∃ w, s.offered = some w ∧ ¬ (e.cmdValid = true ∧ e.cmdData = w) := by
  cases ho : s.offered with
  | none => simp [handshakeKept, ho]
  | some w => cases hv : e.cmdValid <;> simp [handshakeKept, Edge.offer, ho, hv, eq_comm (a := w)]

/-- No edge outside reset stops by itself: in every phase it has a next state, an accepted word's command included (R204). -/
theorem runEdge_next (e : Edge) (s : State) : ∃ t, runEdge e s = .next t := by
  unfold runEdge
  split
  · exact ⟨_, rfl⟩
  · split
    next w _ =>
      obtain ⟨u, rsp, hu, hp, _⟩ := acceptWord_answers w { s with offered := none }
      exact ⟨_, hu ▸ finish_next e.busy hp⟩
    · exact ⟨_, rfl⟩
  · exact ⟨_, rfl⟩
  · split <;> exact ⟨_, rfl⟩

theorem step_of_breaksHandshake (h : BreaksHandshake s) : step s = .fault .hostBrokeHandshake := by
  obtain ⟨e, rest, hs, hr, hk⟩ := h
  have hk' : handshakeKept { s with script := rest } e = false := hk
  simp only [step, nextEdge, hs, clockEdge, hr, hk']

theorem step_of_not_breaksHandshake (h : ¬ BreaksHandshake s) : ∃ t, step s = .next t := by
  cases hs : s.script with
  | nil => exact ⟨s, by simp only [step, nextEdge, hs]⟩
  | cons e rest =>
    cases hr : e.rstN with
    | false => exact ⟨_, step_eq_resetEdge hs hr⟩
    | true =>
      have hk : handshakeKept s e = true := eq_true_of_ne_false fun hk => h ⟨e, rest, hs, hr, hk⟩
      exact step_eq_runEdge hs hr hk ▸ runEdge_next e _

end Stops

/-- Settles O13: a step faults at a broken handshake, and has a next state otherwise. -/
theorem onlyABrokenHandshakeStopsTheCore : Obligations.OnlyABrokenHandshakeStopsTheCore := by
  intro s
  have hbroken : BreaksHandshake s ↔ ∃ e rest w, s.script = e :: rest ∧ e.rstN = true ∧ s.offered = some w ∧
      ¬ (e.cmdValid = true ∧ e.cmdData = w) := by
    simp only [BreaksHandshake, handshakeKept_eq_false_iff, exists_and_left]
  rw [← hbroken]
  by_cases h : BreaksHandshake s
  · have hstep := step_of_breaksHandshake h
    exact ⟨iff_of_true ⟨_, hstep⟩ h, by simp [hstep]⟩
  · obtain ⟨t, hstep⟩ := step_of_not_breaksHandshake h
    exact ⟨iff_of_false (by simp [hstep]) h, by simp [hstep]⟩

/-! ### The fields of a response (R77) -/

/-- Neither field reaches across a joint of the three parts. -/
theorem responseWord_fields (rc : BitVec 8) (data : Data) :
    (responseWord rc data).extractLsb' 32 24 = 0 ∧ dataField (responseWord rc data) = data := by
  simp (disch := decide) only [dataField, responseWord, BitVec.extractLsb'_append_eq_of_le,
    BitVec.extractLsb'_append_eq_of_add_le]
  simp

@[simp] theorem reserved_okResponse (data : Data) : (okResponse data).extractLsb' 32 24 = 0 :=
  (responseWord_fields 0 data).1

@[simp] theorem reserved_errResponse (code arg : BitVec 8) : (errResponse code arg).extractLsb' 32 24 = 0 :=
  responseWord_arg code arg ▸ (responseWord_fields code _).1

/-- DATA of an error response is its argument, zero-extended (R202). -/
@[simp] theorem dataField_errResponse (code arg : BitVec 8) : dataField (errResponse code arg) = arg.setWidth 32 :=
  responseWord_arg code arg ▸ (responseWord_fields code _).2

theorem dataField_errResponse_low (code arg : BitVec 8) : (dataField (errResponse code arg)).setWidth 8 = arg := by
  simp

theorem dataField_errResponse_high (code arg : BitVec 8) :
    (dataField (errResponse code arg)).extractLsb' 8 24 = 0 := by
  ext i hi
  simp

/-! ### The errors of a word (R200, R201) -/

/-- Every error of a word: it is no command, or it is the word of a command that fails (R80, R201). -/
inductive WordFailure (w : CmdWord) (s : State) : BitVec 8 → BitVec 8 → State → Prop where
  | illegal (why : Illegal) : WordFailure w s 5 why.subcause s
  | command {i : Instr} {code arg : BitVec 8} {u : State} : encode i = w → Failure s i code arg u →
      WordFailure w s code arg u

section Words

variable {w : CmdWord} {s t u : State} {code arg : BitVec 8}

/-- How an accepted word ends: answered with RC = 0, or its error recorded and answered with the word's opcode byte
(R11, R202). -/
theorem acceptWord_cases (h : acceptWord w s = .next t) : (∃ data u, t = responding (okResponse data) u) ∨
    ∃ code arg u, WordFailure w s code arg u ∧ t = failing code (w.extractLsb' 56 8) arg u := by
  cases hd : decode s.bseqCap w with
  | error why =>
    cases (acceptWord_of_error hd).symm.trans h
    exact .inr ⟨_, _, _, .illegal why, rfl⟩
  | ok i =>
    obtain ⟨rfl, _⟩ := decode_eq_ok_iff.1 hd
    cases exec_cases ((acceptWord_of_ok hd).symm.trans h) with
    | success => exact .inl ⟨_, _, rfl⟩
    | failure hu =>
      have hopc : (encode i).extractLsb' 56 8 = opcodeOf i := opcField_wordOf _ _ _
      exact .inr ⟨_, _, _, .command rfl hu, by rw [hopc]⟩

/-- The error table of R200 and R201: each code only from the words that can raise it, and with its argument, which
DATA holds zero-extended. -/
theorem WordFailure.listed (h : WordFailure w s code arg u) :
    (code = 1 ∧ w.extractLsb' 56 8 = 0x20 ∧ arg.setWidth 32 = (0 : Data)) ∨
    (code = 2 ∧ w.extractLsb' 56 8 = 0x40 ∧ arg = w.extractLsb' 48 8) ∨
    (code = 4 ∧ w.extractLsb' 56 8 = 0x40 ∧ arg = w.extractLsb' 48 8) ∨
    (code = 4 ∧ (w.extractLsb' 56 8 = 0x51 ∨ w.extractLsb' 56 8 = 0x52) ∧ arg.setWidth 32 = (0 : Data)) ∨
    (code = 5 ∧ (arg.setWidth 32 = (1 : Data) ∨ arg.setWidth 32 = (2 : Data) ∨ arg.setWidth 32 = (3 : Data))) ∨
    (code = 6 ∧ (w.extractLsb' 56 8 = 0x30 ∨ w.extractLsb' 56 8 = 0x21) ∧ arg.setWidth 32 = (0 : Data)) := by
  cases h with
  | illegal why => cases why <;> simp [Illegal.subcause]
  | @command i _ _ _ hw hu =>
    have hopc : w.extractLsb' 56 8 = opcodeOf i := hw ▸ opcField_wordOf _ _ _
    have ha : w.extractLsb' 48 8 = operandA i := hw ▸ aField_wordOf _ _ _
    rw [hopc, ha]
    cases hu <;> simp [opcodeOf, operandA]

/-- What a failing word has written besides its error, by the error's code (R203). -/
theorem WordFailure.frame (h : WordFailure w s code arg u) :
    ((code = 5 ∨ code = 6) → u = s) ∧ ((code = 2 ∨ code = 4) → u = { s with bseqTaint := true }) ∧
    (code = 1 → arg = 0 ∧ u = discardTree s) := by
  cases h with
  | illegal => exact ⟨fun _ => rfl, by simp, by simp⟩
  | command _ hu =>
    cases hu with
    | build => exact ⟨by simp, by simp, fun _ => ⟨rfl, rfl⟩⟩
    | readNode | genTable => exact ⟨fun _ => rfl, by simp, by simp⟩
    | missing | encode | bseqAddBit | bseqAppendBits => exact ⟨by simp, fun _ => rfl, by simp⟩

end Words

/-! ### The obligations on errors -/

/-- Settles O58: a success has RC = 0, and a failure is in the table of errors, its argument in DATA. -/
theorem resultCodesAndArgumentsAreTheTable : Obligations.ResultCodesAndArgumentsAreTheTable := by
  intro w s t rsp h hp
  rcases acceptWord_cases h with ⟨data, u, rfl⟩ | ⟨code, arg, u, hf, rfl⟩
  · cases hp
    have hrc := rcField_okResponse data
    exact ⟨reserved_okResponse data, .inl hrc, .inl hrc⟩
  · cases hp
    rw [rcField_errResponse, dataField_errResponse_low, dataField_errResponse_high, dataField_errResponse]
    exact ⟨reserved_errResponse code arg, .inr rfl, .inr hf.listed⟩

/-- Settles O59: the error is recorded over what the failing word has written before it. -/
theorem aFailedCommandLeavesOnlyItsError : Obligations.AFailedCommandLeavesOnlyItsError := by
  intro w s t rsp h hp hne
  rcases acceptWord_cases h with ⟨data, u, rfl⟩ | ⟨code, arg, u, hf, rfl⟩
  · cases hp
    exact absurd (rcField_okResponse data) hne
  · cases hp
    obtain ⟨hkept, htaint, hbuild⟩ := hf.frame
    rw [rcField_errResponse, dataField_errResponse_low]
    refine ⟨fun hc => by rw [hkept hc], fun hc => by rw [htaint hc], fun hc => ⟨LookupTable.cleared, get_cleared, ?_⟩⟩
    obtain ⟨rfl, rfl⟩ := hbuild hc
    rw [hc]
    rfl

end Sys2Proof.Proofs

/-! PROOF. The two resets and the reset clear (70_reset_and_hazards.md R230 to R233), and ENCODE between a BUILD and the next
GEN_TABLE (R239). -/

namespace Sys2Proof.Proofs

open Sys2Proof.Machine Sys2Proof.Safety Sys2Proof.Laws

/-! ### Reset by rst_n and by SOFT_RESET (R230, R231) -/

/-- The storages of both resets: those of State.reset, at the state's own capacity (R38). -/
theorem storageOf_resetStorage (s : State) :
    storageOf (resetStorage s) = storageOf { State.reset with bseqCap := s.bseqCap } := rfl

/-- A reset edge leaves the storages that SOFT_RESET leaves: it differs in the channels alone. -/
theorem storageOf_resetEdge (s : State) : storageOf (resetEdge s) = storageOf (resetStorage s) := rfl

/-- A reset edge leaves the core in the reset clear, so no response is in flight (R206, R230). -/
@[simp] theorem inFlight_resetEdge (s : State) : inFlight (resetEdge s) = [] := rfl

/-- Settles O10: the step is the reset edge, over the state whose sample is taken from the script. -/
theorem resetEdgeDropsEverything : Obligations.ResetEdgeDropsEverything := by
  intro s e rest hs hr
  exact ⟨_, step_eq_resetEdge hs hr, rfl, rfl, inFlight_resetEdge _, resetEdge_phase _, resetEdge_offered _,
    resetEdge_script _, resetEdge_responses _, (storageOf_resetEdge _).trans (storageOf_resetStorage _)⟩

/-- Settles O11: both resets leave the reset storage, and only SOFT_RESET answers. -/
theorem bothResetsLeaveTheSameState : Obligations.BothResetsLeaveTheSameState := by
  intro s t u e rest hs hr hstep hexec
  cases (step_eq_resetEdge hs hr).symm.trans hstep
  cases (exec_of_success .softReset).symm.trans hexec
  have hedge := storageOf_resetEdge { s with script := rest }
  exact ⟨hedge, hedge.trans (storageOf_resetStorage _), inFlight_resetEdge _, rfl⟩

/-! ### The reset clear (R232, R233) -/

/-- An edge in the reset clear moves the phase and takes the host's offer, and nothing else (R232). -/
theorem runEdge_of_clearing {s : State} (e : Edge) (h : s.phase = .clearing) :
    runEdge e s = .next { s with phase := if e.busy then .clearing else .ready, offered := e.offer } := by
  simp only [runEdge, h]

/-- Settles O12: outside reset, with the handshake kept, the step is that edge. -/
theorem resetClearEndsReady : Obligations.ResetClearEndsReady := by
  intro s e rest hs hr hp hk
  exact ⟨by simp only [cmdReady, hp], (step_eq_runEdge hs hr hk).trans (runEdge_of_clearing e hp)⟩

/-! ### Between a BUILD and the next GEN_TABLE (R239) -/

section Gap

variable {i : Instr} {is : List Instr} {s t : State}

/-- BUILD discards the old table, whether or not it finds a tree to build (R110, R203). -/
theorem lt_cleared_of_build (h : exec .build s = .next t) : t.lt = LookupTable.cleared := by
  cases exec_cases h with
  | success hu => cases hu; rfl
  | failure hu => cases hu; rfl

theorem lt_cleared_of_softReset (h : exec .softReset s = .next t) : t.lt = LookupTable.cleared := by
  cases (exec_of_success .softReset).symm.trans h
  rfl

/-- Only GEN_TABLE gives a cleared table an entry: BUILD and SOFT_RESET clear it again, and no other command writes it (R39). -/
theorem lt_cleared_kept (hs : s.lt = LookupTable.cleared) (h : exec i s = .next t) (hg : i ≠ .genTable) :
    t.lt = LookupTable.cleared := by
  by_cases hb : i = .build
  · exact lt_cleared_of_build (hb ▸ h)
  by_cases hr : i = .softReset
  · exact lt_cleared_of_softReset (hr ▸ h)
  · exact (table_kept (exec_cases h) hb hg hr).1.trans hs

theorem lt_cleared_of_build_runCommands (his : ∀ i ∈ is, i ≠ .genTable) (h : runCommands (.build :: is) s = .next t) :
    t.lt = LookupTable.cleared := by
  obtain ⟨u, hbuild, hrun⟩ := runCommands_cons_next h
  exact kept_of_runCommands (P := fun v => v.lt = LookupTable.cleared) (lt_cleared_of_build hbuild)
    (fun i hi _ _ hs hexec => lt_cleared_kept hs hexec (his i hi)) hrun

end Gap

/-- Settles O57: the table is cleared by the BUILD and stays so, and in a cleared table every symbol is missing. -/
theorem encodeFailsBetweenBuildAndGenTable : Obligations.EncodeFailsBetweenBuildAndGenTable := by
  intro s t is sym his h
  have hmissing : (t.lt.get sym).valid = false := by
    rw [lt_cleared_of_build_runCommands his h, get_cleared]
  exact exec_of_failure (.missing hmissing)

end Sys2Proof.Proofs
